-- ==== Sys2Proof/Word.lean ====
section
/-! DEFINITION. The value types of DESCORE (00_scope.md R8, R10; 10_state.md R22).

A fixed-width register is a `BitVec n`: position `i` of the spec (counted from 1 at the first, most
significant bit, R10 and R54) is `v.getMsbD (i - 1)`. An operand or result of any length is a `Bits`. -/

namespace Sys2Proof

/-- A bit sequence of any length, first bit (position 1) first (R10). -/
abbrev Bits := List Bool

/-- A byte of a packet. -/
abbrev Byte := BitVec 8

/-- A 64-bit block, key or initialization vector (`BLOCK_BITS`, `KEY_BITS`, `IV_BITS` of R8). -/
abbrev Block := BitVec 64

/-- A Feistel half `L` or `R` (`HALF_BLOCK_BITS` of R8). -/
abbrev HalfBlock := BitVec 32

/-- A key-schedule half `C` or `D` (`HALF_KEY_BITS` of R8). -/
abbrev HalfKey := BitVec 28

/-- A round subkey (`SUBKEY_BITS` of R8). -/
abbrev Subkey := BitVec 48

end Sys2Proof
end

