-- ==== Sys2Proof/Config.lean ====
section
/-! DEFINITION. The parameters the spec leaves open (00_scope.md R9), which a machine holds in `State.params` and
every statement about the machine is for all of (notes/assumptions/2.md); and the one value the spec does not state
(notes/assumptions/18.md). -/

namespace Sys2Proof.Config

/-- The two open parameters of R9. -/
structure Params where
  /-- `MAX_DATA_BITS`, the largest DATA operand of ENCRYPT_ECB and ENCRYPT_CBC (92_eei_decisions.md D7). -/
  maxDataBits : Nat
  /-- `EMPTY_DATA_BLOCKS`, the number of blocks a zero-length DATA operand makes (D15). -/
  emptyDataBlocks : Fin 2
  deriving DecidableEq, Repr

/-- R9: `MAX_DATA_BITS` is from 64 to 2^32-1. In a model with packets a DATA operand has at most 2^32-1 bits
(30_encoding.md R84), so the largest value is the spec's "unbounded". -/
abbrev Params.wf (p : Params) : Prop := 64 ≤ p.maxDataBits ∧ p.maxDataBits ≤ 2 ^ 32 - 1

/-- DESIGN CHOICE (notes/assumptions/2.md): the parameters of the machine in `State.reset`. -/
def Params.default : Params := { maxDataBits := 2 ^ 32 - 1, emptyDataBlocks := 0 }

/-- The OUT_LEN of a result too long for its 32-bit field (30_encoding.md R88): a free value, as no rule states it
(DESIGN CHOICE, notes/assumptions/18.md). -/
opaque unstatedOutLen : Bits → BitVec 32

end Sys2Proof.Config
end

