-- ==== Sys2Proof/Machine/BitSeq.lean ====
section
/-! DEFINITION. Bit sequences, numbers and bytes: the notation of 00_scope.md R10 to R12 and the bit and byte
orders of 20_memory.md R54 to R56 and 30_encoding.md R84, R85. -/

namespace Sys2Proof.Machine

/-- `uint(v)`: the value of a bit sequence, first bit most significant (R10). -/
def uint (b : Bits) : Nat := b.foldl (fun a x => 2 * a + x.toNat) 0

/-- The bits of a fixed-width value, first (most significant) bit first (R10). -/
def toBits {n : Nat} (v : BitVec n) : Bits := (List.range n).map v.getMsbD

/-- The `n`-bit value whose bits are the sequence `b`, for `|b| = n` (R10). -/
def ofBits (n : Nat) (b : Bits) : BitVec n := BitVec.ofNat n (uint b)

/-- `bitsN(x)`: the `n`-bit sequence of value `x` (R10). -/
def bitsN (n x : Nat) : Bits := toBits (BitVec.ofNat n x)

/-- `v{a..a+n-1}`: the `n` bits of `v` from position `a` on, positions counted from 1 (R10). -/
def seg {w : Nat} (v : BitVec w) (a n : Nat) : BitVec n := v.extractLsb' (w - (a - 1 + n)) n

/-- `zeropadN(v)` for `|v| ≤ n`: zero bits appended up to length `n` (R12 has `n = 64`). -/
def zeropad (n : Nat) (b : Bits) : Bits := b ++ List.replicate (n - b.length) false

/-- `nb(x) = ceil(x / 8)`: the bytes that `x` bits take (R80). -/
def nb (x : Nat) : Nat := (x + 7) / 8

/-- `n` bytes holding the sequence `b`, first bit in the most significant place of the first byte (R85). -/
def packGo : Nat → Bits → List Byte
  | 0, _ => []
  | n + 1, b => ofBits 8 (zeropad 8 (b.take 8)) :: packGo n (b.drop 8)

/-- The bytes of an operand or result of `|b|` bits, the pad bits of the last byte zero (R85;
notes/assumptions/13.md). -/
def packBits (b : Bits) : List Byte := packGo (nb b.length) b

/-- The bits of a sequence of bytes, each byte's most significant bit first (R85). -/
def unpackBits (bs : List Byte) : Bits := bs.flatMap toBits

/-- A 32-bit number as four bytes, most significant byte first (R84). -/
def be32 (x : Nat) : List Byte :=
  [BitVec.ofNat 8 (x / 2 ^ 24), BitVec.ofNat 8 (x / 2 ^ 16), BitVec.ofNat 8 (x / 2 ^ 8), BitVec.ofNat 8 x]

/-- The number that bytes hold, most significant byte first (R84). -/
def beNat (bs : List Byte) : Nat := bs.foldl (fun a b => 256 * a + b.toNat) 0

/-- `bytes(OUT)`: the byte values of a bit sequence, each group's first bit of weight 128 (R55,
43_mode_controller.md R208). -/
def byteValues (b : Bits) : List Nat := (packBits b).map BitVec.toNat

end Sys2Proof.Machine
end

