-- ==== Sys2Proof/Syntax.lean ====
section
/-! DEFINITION. The commands of DESCORE, one constructor per row of spec/opcode_table.json (30_encoding.md R82,
R83). Every packet carries the three operands KEY, IV and DATA whether or not the command uses them (R80, R86). -/

namespace Sys2Proof

/-- The four operations of R82, each named by its full command byte. -/
inductive Opcode where
  | deriveKeys
  | encryptBlock
  | encryptEcb
  | encryptCbc
  deriving DecidableEq, Repr

/-- A command as the host submits it: the operation and its three operands. -/
inductive Instr where
  /-- `DERIVE_KEYS` (40_key_schedule.md R115). -/
  | deriveKeys (key iv data : Bits)
  /-- `ENCRYPT_BLOCK` (42_block_transform.md R177). -/
  | encryptBlock (key iv data : Bits)
  /-- `ENCRYPT_ECB` (43_mode_controller.md R209). -/
  | encryptEcb (key iv data : Bits)
  /-- `ENCRYPT_CBC` (43_mode_controller.md R210). -/
  | encryptCbc (key iv data : Bits)
  /-- The table's row `(illegal)`: a packet whose command byte R82 does not assign (R83). -/
  | illegal (cmd : Byte) (key iv data : Bits)
  deriving DecidableEq, Repr

namespace Instr

/-- The KEY operand as the packet carries it. -/
def key : Instr → Bits
  | deriveKeys k _ _ | encryptBlock k _ _ | encryptEcb k _ _ | encryptCbc k _ _ | illegal _ k _ _ => k

/-- The IV operand as the packet carries it. -/
def iv : Instr → Bits
  | deriveKeys _ v _ | encryptBlock _ v _ | encryptEcb _ v _ | encryptCbc _ v _ | illegal _ _ v _ => v

/-- The DATA operand as the packet carries it. -/
def data : Instr → Bits
  | deriveKeys _ _ d | encryptBlock _ _ d | encryptEcb _ _ d | encryptCbc _ _ d | illegal _ _ _ d => d

end Instr

end Sys2Proof
end

