-- ==== Sys2Proof/WellFormed.lean ====
section
/-! DEFINITION. Which commands a packet can carry: every operand length fits its 32-bit field (30_encoding.md R80,
R84), and an illegal command's byte is none of the four of R82 (R83). -/

namespace Sys2Proof

/-- The operand lengths a packet's length fields can hold (R84). -/
abbrev operandFits (b : Bits) : Prop := b.length < 2 ^ 32

/-- The command bytes that R82 assigns. -/
def assignedBytes : List Byte := [0x01#8, 0x02#8, 0x03#8, 0x04#8]

/-- A command that some packet carries. -/
def Instr.wf : Instr → Bool
  | .deriveKeys k v d | .encryptBlock k v d | .encryptEcb k v d | .encryptCbc k v d =>
    decide (operandFits k) && decide (operandFits v) && decide (operandFits d)
  | .illegal c k v d =>
    !assignedBytes.contains c && decide (operandFits k) && decide (operandFits v) && decide (operandFits d)

end Sys2Proof
end

