-- ==== Sys2Proof/Decode.lean ====
section
/-! DEFINITION. Command packets: the decoder of 30_encoding.md R80 to R87 and, after it, the encoder from the same
layout. -/

namespace Sys2Proof

open Sys2Proof.Machine

/-- The operation a command byte selects: all 8 bits are matched (R82). -/
def opcodeOf (cmd : Byte) : Option Opcode :=
  if cmd = 0x01#8 then some .deriveKeys
  else if cmd = 0x02#8 then some .encryptBlock
  else if cmd = 0x03#8 then some .encryptEcb
  else if cmd = 0x04#8 then some .encryptCbc
  else none

/-- The command of a complete packet: one of the four operations, or illegal (R82, R83, R87). -/
def commandOf (cmd : Byte) (key iv data : Bits) : Instr :=
  match opcodeOf cmd with
  | some .deriveKeys => .deriveKeys key iv data
  | some .encryptBlock => .encryptBlock key iv data
  | some .encryptEcb => .encryptEcb key iv data
  | some .encryptCbc => .encryptCbc key iv data
  | none => .illegal cmd key iv data

/-- Why a byte sequence is no complete packet: where it ends (R90). -/
inductive DecodeError where
  /-- There is no command byte yet. -/
  | noCommand
  /-- The sequence ends inside KEY_LEN or KEY. -/
  | keyIncomplete
  /-- The sequence ends inside IV_LEN or IV. -/
  | ivIncomplete
  /-- The sequence ends inside DATA_LEN or DATA. -/
  | dataIncomplete
  deriving DecidableEq, Repr

/-- One operand field: its 32-bit bit length, then that many bits in whole bytes, pad bits dropped (R84, R85).
Answers the operand and the bytes after it, or nothing where the bytes run out. -/
def readOperand (bs : List Byte) : Option (Bits × List Byte) :=
  let len := beNat (bs.take 4)
  if bs.length < 4 then none
  else if (bs.drop 4).length < nb len then none
  else some ((unpackBits ((bs.drop 4).take (nb len))).take len, (bs.drop 4).drop (nb len))

/-- `decode` of R87: the command at the head of a byte stream and the bytes after its packet. Total on every
complete packet; an incomplete one is rejected by the name of the field it ends in (R90). -/
def decode : List Byte → Except DecodeError (Instr × List Byte)
  | [] => .error .noCommand
  | cmd :: b =>
    match readOperand b with
    | none => .error .keyIncomplete
    | some (key, b) =>
      match readOperand b with
      | none => .error .ivIncomplete
      | some (iv, b) =>
        match readOperand b with
        | none => .error .dataIncomplete
        | some (data, b) => .ok (commandOf cmd key iv data, b)

/-- The command byte of a command (R82). -/
def Instr.cmdByte : Instr → Byte
  | .deriveKeys _ _ _ => 0x01#8
  | .encryptBlock _ _ _ => 0x02#8
  | .encryptEcb _ _ _ => 0x03#8
  | .encryptCbc _ _ _ => 0x04#8
  | .illegal c _ _ _ => c

/-- One operand field as bytes (R84, R85). -/
def encodeOperand (b : Bits) : List Byte := be32 b.length ++ packBits b

/-- The packet of a command (R80). -/
def encode (i : Instr) : List Byte :=
  i.cmdByte :: (encodeOperand i.key ++ (encodeOperand i.iv ++ encodeOperand i.data))

/-- The length of a command's packet in bytes (R80). -/
def packetLength (i : Instr) : Nat := 13 + nb i.key.length + nb i.iv.length + nb i.data.length

/-- Byte `j` of an instruction of the opcode table: bits `8j+7 .. 8j` of `w`, and zero past its `nbits` bits. -/
def tableByte (nbits w j : Nat) : Byte := if 8 * j < nbits then BitVec.ofNat 8 (w / 2 ^ (8 * j)) else 0#8

/-- The big-endian number at byte `j` of a table word (R84). -/
def tableLen (nbits w j : Nat) : Nat := beNat ((List.range 4).map fun t => tableByte nbits w (j + t))

/-- The whole packet of a table word: its own bytes, then zero bytes up to the end that its length fields give
(R80, R87). With no bits of its own for the length fields it is 13 bytes. -/
def tablePacket (nbits w : Nat) : List Byte :=
  let p := 5 + nb (tableLen nbits w 1)
  let q := p + 4 + nb (tableLen nbits w p)
  let n := q + 4 + nb (tableLen nbits w q)
  (List.range n).map (tableByte nbits w)

/-- The command the decoder reads from a word of the opcode table. -/
def decodeTableWord (nbits w : Nat) : Option Instr :=
  match decode (tablePacket nbits w) with
  | .ok (i, _) => some i
  | .error _ => none

end Sys2Proof
end

