-- ==== Sys2Proof/Machine/State.lean ====
section
/-! DEFINITION. Everything the spec gives the machine, as plain data (10_state.md R22, R24, R27; 70_reset_and_hazards.md
R260), with the open parameters (00_scope.md R9) and the host's side of the interface (60_exceptions.md R245). -/

namespace Sys2Proof.Machine

/-- The sequencer register `PHASE` (R24), in the order of its numbers 0 to 10. -/
inductive Phase where
  | idle
  | decode
  | ksPc1
  | ksRound
  | blkLoad
  | ip
  | round
  | swap
  | fp
  | blkStore
  | respond
  deriving DecidableEq, Repr

/-- What the host does at one step (R245). A `send` waits until `REQ_READY = 1` and a `take` until
`RSP_VALID = 1`: the ready/valid handshake (92_eei_decisions.md D2, D27; notes/assumptions/4.md). -/
inductive HostMove where
  /-- The host does nothing at this step. -/
  | wait
  /-- The host delivers these bytes of a command packet. -/
  | send (bytes : List Byte)
  /-- The host takes the response on offer. -/
  | take
  /-- The host asserts reset. -/
  | reset
  deriving DecidableEq, Repr

/-- How much of R181 one step does when a complete packet is on offer (notes/assumptions/3.md). -/
inductive Grain where
  /-- The whole command, from accept to RESPOND: the atomic step R182 allows. -/
  | command
  /-- The accept transition alone; each later step is one transition of R181. -/
  | phase
  deriving DecidableEq, Repr

/-- The machine. The registers from `phase` to `diag` are those of R22 and R24 under their own names. -/
structure State where
  /-- The open parameters of R9; no step writes them. -/
  params : Config.Params
  /-- The model's own: the grain of a step; no step writes it. -/
  grain : Grain
  phase : Phase
  cmdreg : Byte
  keyop : Bits
  ivop : Bits
  dataop : Bits
  keyreg : Block
  ivreg : Block
  c : HalfKey
  d : HalfKey
  /-- `KS[n]` is entry `n - 1`, for n = 1..16 (R27). -/
  ks : Vector Subkey 16
  rnd : BitVec 5
  /-- NBLK and BLK are natural numbers with no wrap (notes/assumptions/11.md). -/
  nblk : Nat
  blk : Nat
  blkin : Block
  l : HalfBlock
  r : HalfBlock
  preout : Block
  blkout : Block
  chain : Block
  outbuf : Bits
  status : Byte
  diag : Byte
  /-- Packet bytes received and not yet accepted (30_encoding.md R90, R260). -/
  rx : List Byte
  /-- The model's own: the host's coming moves, the next one first. -/
  host : List HostMove
  /-- The model's own: the response packets the host has taken, the first one first. -/
  taken : List (List Byte)
  deriving DecidableEq, Repr

/-- Why the machine stops. Both are safe: they stop where the spec forms no such access, and no state that
satisfies the invariant of Safety.lean raises one (notes/assumptions/8.md). -/
inductive Fault where
  /-- Raised by the phases KS_ROUND and ROUND when `RND` is not 1..16, so that `SHIFTS[RND]` or `KS[RND]` names no
  entry (20_memory.md R51, 92_eei_decisions.md D14). Safe. -/
  | tableAddress
  /-- Raised by the phase BLK_LOAD when `BLK` is not below `NBLK`, so that `Block(DATAOP, BLK)` is not defined
  (43_mode_controller.md R202). Safe. -/
  | blockIndex
  deriving DecidableEq, Repr

/-- Why an instruction has no meaning. -/
inductive Refusal where
  /-- Raised by a dispatch arm whose instruction has no meaning yet. Safe; no arm raises it. -/
  | notModelled (mnemonic : String)
  deriving DecidableEq, Repr

/-- The machine right after reset: `PHASE` is IDLE and no packet byte is held (R35, R260). The spec gives the
datapath registers no value; they are zero or empty here (DESIGN CHOICE, notes/assumptions/1.md). -/
def State.reset : State where
  params := Config.Params.default
  grain := .command
  phase := .idle
  cmdreg := 0#8
  keyop := []
  ivop := []
  dataop := []
  keyreg := 0#64
  ivreg := 0#64
  c := 0#28
  d := 0#28
  ks := Vector.replicate 16 0#48
  rnd := 0#5
  nblk := 0
  blk := 0
  blkin := 0#64
  l := 0#32
  r := 0#32
  preout := 0#64
  blkout := 0#64
  chain := 0#64
  outbuf := []
  status := 0#8
  diag := 0#8
  rx := []
  host := []
  taken := []

end Sys2Proof.Machine
end

