-- ==== Sys2Proof/Machine/Flags.lean ====
section
/-! DEFINITION. The block has no condition codes (10_state.md R32). Its status is the result code `STATUS` with
`DIAG` (R33) and the two interface signals (R34). -/

namespace Sys2Proof.Machine

/-- An operand, as `DIAG` names it (R33). -/
inductive Operand where
  | key
  | iv
  | data
  deriving DecidableEq, Repr

/-- The `DIAG` code of an operand: KEY 1, IV 2, DATA 3 (R33). -/
def Operand.code : Operand → Byte
  | .key => 1#8
  | .iv => 2#8
  | .data => 3#8

/-- The errors of 60_exceptions.md R230. -/
inductive CmdError where
  | lengthContractViolation (x : Operand)
  | illegalCommand
  | capacityExceeded (x : Operand)
  deriving DecidableEq, Repr

/-- `STATUS` of a completed command: `OK` (R33). -/
def statusOk : Byte := 0#8

/-- `code(Error)`: the `STATUS` of an error (R33, R230). -/
def CmdError.status : CmdError → Byte
  | .lengthContractViolation _ => 1#8
  | .illegalCommand => 2#8
  | .capacityExceeded _ => 3#8

/-- The `DIAG` of an error: the operand, or 0 for an illegal command (R33, R232). -/
def CmdError.diag : CmdError → Byte
  | .lengthContractViolation x => x.code
  | .illegalCommand => 0#8
  | .capacityExceeded x => x.code

/-- `REQ_READY`: 1 exactly when `PHASE = IDLE` (R34). -/
def reqReady (s : State) : Bool := decide (s.phase = .idle)

/-- `RSP_VALID`: 1 exactly when `PHASE = RESPOND` (R34). -/
def rspValid (s : State) : Bool := decide (s.phase = .respond)

end Sys2Proof.Machine
end

