-- ==== Sys2Proof/Machine/Operands.lean ====
section
/-! DEFINITION. The operand forms of the commands: key and IV selection and segmentation of the data
(43_mode_controller.md R200 to R202), and the operand checks with their order (60_exceptions.md R231 to R235). -/

namespace Sys2Proof.Machine

open Sys2Proof.Config

/-- `X{1..64}`: the first 64 bits of an operand of at least 64 bits (R200, R201). -/
def first64 (x : Bits) : Block := ofBits 64 (x.take 64)

/-- `NBLK(d)`, the number of blocks of a data operand (R202). -/
def blockCount (p : Params) (d : Bits) : Nat :=
  if d.length = 0 then p.emptyDataBlocks.val else (d.length + 63) / 64

/-- `Block(d, j)`: segment `j` of the data, the last one padded on the right with zero bits; the zero block where
the data is empty (R202). -/
def blockAt (d : Bits) (j : Nat) : Block := ofBits 64 (zeropad 64 ((d.drop (64 * j)).take 64))

/-- Check 2 of R235: the KEY length contract of R233. -/
def checkKey (op : Opcode) (key : Bits) : Option CmdError :=
  match op with
  | .deriveKeys | .encryptBlock => if key.length ≠ 64 then some (.lengthContractViolation .key) else none
  | .encryptEcb | .encryptCbc => if key.length < 64 then some (.lengthContractViolation .key) else none

/-- Check 3 of R235: the IV length contract of R233, ENCRYPT_CBC only. -/
def checkIv (op : Opcode) (iv : Bits) : Option CmdError :=
  match op with
  | .encryptCbc => if iv.length < 64 then some (.lengthContractViolation .iv) else none
  | .deriveKeys | .encryptBlock | .encryptEcb => none

/-- Check 4 of R235: the DATA length contract of R233, ENCRYPT_BLOCK only. -/
def checkDataLength (op : Opcode) (data : Bits) : Option CmdError :=
  match op with
  | .encryptBlock => if data.length ≠ 64 then some (.lengthContractViolation .data) else none
  | .deriveKeys | .encryptEcb | .encryptCbc => none

/-- Check 5 of R235: the capacity of R234, ENCRYPT_ECB and ENCRYPT_CBC only. -/
def checkCapacity (p : Params) (op : Opcode) (data : Bits) : Option CmdError :=
  match op with
  | .encryptEcb | .encryptCbc => if p.maxDataBits < data.length then some (.capacityExceeded .data) else none
  | .deriveKeys | .encryptBlock => none

/-- The error a command reports, if any: the first check of R235 that fails. -/
def firstError (p : Params) (cmd : Byte) (key iv data : Bits) : Option CmdError :=
  match opcodeOf cmd with
  | none => some .illegalCommand
  | some op => checkKey op key <|> checkIv op iv <|> checkDataLength op data <|> checkCapacity p op data

end Sys2Proof.Machine
end

