-- ==== Sys2Proof/Machine/Ops.lean ====
section
/-! DEFINITION. The operations the phases share: `PERM` and `ROL` (00_scope.md R12), accepting a command, raising an
error and completing (42_block_transform.md R180, 60_exceptions.md R232), the response packet and its taking
(30_encoding.md R88), and reset (70_reset_and_hazards.md R260). -/

namespace Sys2Proof.Machine

/-- `PERM(T, v)` for a table of `n` entries: bit j of the result is `v{T[j]}` (R12). -/
def perm {m : Nat} (n : Nat) (T : List Nat) (v : BitVec m) : BitVec n := ofBits n (T.map fun t => v.getMsbD (t - 1))

/-- `ROL_k(v)`: left circular rotation by `k` positions (R12). -/
def rol {n : Nat} (k : Nat) (v : BitVec n) : BitVec n := v.rotateLeft k

/-- The accept transition: the command byte and the operands are latched (R180, R270). -/
def accept (cmd : Byte) (key iv data : Bits) (s : State) : State :=
  { s with cmdreg := cmd, keyop := key, ivop := iv, dataop := data, phase := .decode }

/-- `raise`: the command ends with an error response and no result (R232). There is no trap, no saved state and no
return (R238, R239): control goes to RESPOND. -/
def raise (e : CmdError) (s : State) : State :=
  { s with status := e.status, diag := e.diag, outbuf := [], phase := .respond }

/-- The command ends with its result in OUTBUF: STATUS OK, DIAG 0 (R115, R116, R206). -/
def complete (s : State) : State := { s with status := statusOk, diag := 0#8, phase := .respond }

/-- What a response carries (R88). -/
structure Response where
  status : Byte
  diag : Byte
  out : Bits
  deriving DecidableEq, Repr

/-- The response on offer while `PHASE = RESPOND` (10_state.md R34). -/
def State.response (s : State) : Response := { status := s.status, diag := s.diag, out := s.outbuf }

/-- The OUT_LEN field: the length of OUT in bits, big-endian (R88). A result of 2^32 bits (NBLK = 2^26, for DATA
longer than 2^32-64 bits where MAX_DATA_BITS allows it, R9 and R22) does not fit the field, and the spec does not say
what the field then holds: a free value (DESIGN CHOICE, notes/assumptions/18.md). -/
def outLenField (out : Bits) : List Byte :=
  if out.length < 2 ^ 32 then be32 out.length else be32 (Config.unstatedOutLen out).toNat

/-- The response packet: STATUS, DIAG, OUT_LEN and OUT, all of OUT whatever OUT_LEN (R88; notes/assumptions/18.md). -/
def Response.packet (r : Response) : List Byte := r.status :: r.diag :: (outLenField r.out ++ packBits r.out)

/-- The take transition: the host gets the response packet and the core is IDLE again; the datapath registers keep
their values (R180, R239). -/
def takeResponse (s : State) : State := { s with phase := .idle, taken := s.taken ++ [s.response.packet] }

/-- The reset event: any command in progress, held response and partly received packet is gone, and every register
is as in `State.reset` (R260, R261). The parameters, the grain and the host's side are not the core's to reset. -/
def resetEvent (s : State) : State :=
  { State.reset with params := s.params, grain := s.grain, host := s.host, taken := s.taken }

end Sys2Proof.Machine
end

