-- ==== Sys2Proof/Machine/Tables.lean ====
section
/-! DEFINITION. The constant tables of DESCORE (20_memory.md R50, R51), transcribed from 40_key_schedule.md,
41_round_function.md and 42_block_transform.md. They are read-only and fixed, so they are constants and no state. -/

namespace Sys2Proof.Machine

/-- `PC1[1..56]` (`ROM_PC1`, 40_key_schedule.md R110). -/
def tablePC1 : List Nat :=
  [57, 49, 41, 33, 25, 17,  9,
    1, 58, 50, 42, 34, 26, 18,
   10,  2, 59, 51, 43, 35, 27,
   19, 11,  3, 60, 52, 44, 36,
   63, 55, 47, 39, 31, 23, 15,
    7, 62, 54, 46, 38, 30, 22,
   14,  6, 61, 53, 45, 37, 29,
   21, 13,  5, 28, 20, 12,  4]

/-- `PC2[1..48]` (`ROM_PC2`, R113). -/
def tablePC2 : List Nat :=
  [14, 17, 11, 24,  1,  5,
    3, 28, 15,  6, 21, 10,
   23, 19, 12,  4, 26,  8,
   16,  7, 27, 20, 13,  2,
   41, 52, 31, 37, 47, 55,
   30, 40, 51, 45, 33, 48,
   44, 49, 39, 56, 34, 53,
   46, 42, 50, 36, 29, 32]

/-- `E[1..48]` (`ROM_E`, 41_round_function.md R140). -/
def tableE : List Nat :=
  [32,  1,  2,  3,  4,  5,
    4,  5,  6,  7,  8,  9,
    8,  9, 10, 11, 12, 13,
   12, 13, 14, 15, 16, 17,
   16, 17, 18, 19, 20, 21,
   20, 21, 22, 23, 24, 25,
   24, 25, 26, 27, 28, 29,
   28, 29, 30, 31, 32,  1]

/-- `P[1..32]` (`ROM_P`, R147). -/
def tableP : List Nat :=
  [16,  7, 20, 21,
   29, 12, 28, 17,
    1, 15, 23, 26,
    5, 18, 31, 10,
    2,  8, 24, 14,
   32, 27,  3,  9,
   19, 13, 30,  6,
   22, 11,  4, 25]

/-- `IP[1..64]` (`ROM_IP`, 42_block_transform.md R170). -/
def tableIP : List Nat :=
  [58, 50, 42, 34, 26, 18, 10,  2,
   60, 52, 44, 36, 28, 20, 12,  4,
   62, 54, 46, 38, 30, 22, 14,  6,
   64, 56, 48, 40, 32, 24, 16,  8,
   57, 49, 41, 33, 25, 17,  9,  1,
   59, 51, 43, 35, 27, 19, 11,  3,
   61, 53, 45, 37, 29, 21, 13,  5,
   63, 55, 47, 39, 31, 23, 15,  7]

/-- `FP[1..64]` (`ROM_FP`, R171). -/
def tableFP : List Nat :=
  [40,  8, 48, 16, 56, 24, 64, 32,
   39,  7, 47, 15, 55, 23, 63, 31,
   38,  6, 46, 14, 54, 22, 62, 30,
   37,  5, 45, 13, 53, 21, 61, 29,
   36,  4, 44, 12, 52, 20, 60, 28,
   35,  3, 43, 11, 51, 19, 59, 27,
   34,  2, 42, 10, 50, 18, 58, 26,
   33,  1, 41,  9, 49, 17, 57, 25]

/-- `SHIFTS[1..16]` (`ROM_SHIFTS`, 40_key_schedule.md R111). -/
def tableShifts : List Nat := [1, 1, 2, 2, 2, 2, 2, 2, 1, 2, 2, 2, 2, 2, 2, 1]

/-- `SBOX[0]`, rows 0 to 3 (41_round_function.md R146). -/
def sbox0 : List (List Nat) :=
  [[14,  4, 13,  1,  2, 15, 11,  8,  3, 10,  6, 12,  5,  9,  0,  7],
   [ 0, 15,  7,  4, 14,  2, 13,  1, 10,  6, 12, 11,  9,  5,  3,  8],
   [ 4,  1, 14,  8, 13,  6,  2, 11, 15, 12,  9,  7,  3, 10,  5,  0],
   [15, 12,  8,  2,  4,  9,  1,  7,  5, 11,  3, 14, 10,  0,  6, 13]]

/-- `SBOX[1]`, rows 0 to 3 (41_round_function.md R146). -/
def sbox1 : List (List Nat) :=
  [[15,  1,  8, 14,  6, 11,  3,  4,  9,  7,  2, 13, 12,  0,  5, 10],
   [ 3, 13,  4,  7, 15,  2,  8, 14, 12,  0,  1, 10,  6,  9, 11,  5],
   [ 0, 14,  7, 11, 10,  4, 13,  1,  5,  8, 12,  6,  9,  3,  2, 15],
   [13,  8, 10,  1,  3, 15,  4,  2, 11,  6,  7, 12,  0,  5, 14,  9]]

/-- `SBOX[2]`, rows 0 to 3 (41_round_function.md R146). -/
def sbox2 : List (List Nat) :=
  [[10,  0,  9, 14,  6,  3, 15,  5,  1, 13, 12,  7, 11,  4,  2,  8],
   [13,  7,  0,  9,  3,  4,  6, 10,  2,  8,  5, 14, 12, 11, 15,  1],
   [13,  6,  4,  9,  8, 15,  3,  0, 11,  1,  2, 12,  5, 10, 14,  7],
   [ 1, 10, 13,  0,  6,  9,  8,  7,  4, 15, 14,  3, 11,  5,  2, 12]]

/-- `SBOX[3]`, rows 0 to 3 (41_round_function.md R146). -/
def sbox3 : List (List Nat) :=
  [[ 7, 13, 14,  3,  0,  6,  9, 10,  1,  2,  8,  5, 11, 12,  4, 15],
   [13,  8, 11,  5,  6, 15,  0,  3,  4,  7,  2, 12,  1, 10, 14,  9],
   [10,  6,  9,  0, 12, 11,  7, 13, 15,  1,  3, 14,  5,  2,  8,  4],
   [ 3, 15,  0,  6, 10,  1, 13,  8,  9,  4,  5, 11, 12,  7,  2, 14]]

/-- `SBOX[4]`, rows 0 to 3 (41_round_function.md R146). -/
def sbox4 : List (List Nat) :=
  [[ 2, 12,  4,  1,  7, 10, 11,  6,  8,  5,  3, 15, 13,  0, 14,  9],
   [14, 11,  2, 12,  4,  7, 13,  1,  5,  0, 15, 10,  3,  9,  8,  6],
   [ 4,  2,  1, 11, 10, 13,  7,  8, 15,  9, 12,  5,  6,  3,  0, 14],
   [11,  8, 12,  7,  1, 14,  2, 13,  6, 15,  0,  9, 10,  4,  5,  3]]

/-- `SBOX[5]`, rows 0 to 3 (41_round_function.md R146). -/
def sbox5 : List (List Nat) :=
  [[12,  1, 10, 15,  9,  2,  6,  8,  0, 13,  3,  4, 14,  7,  5, 11],
   [10, 15,  4,  2,  7, 12,  9,  5,  6,  1, 13, 14,  0, 11,  3,  8],
   [ 9, 14, 15,  5,  2,  8, 12,  3,  7,  0,  4, 10,  1, 13, 11,  6],
   [ 4,  3,  2, 12,  9,  5, 15, 10, 11, 14,  1,  7,  6,  0,  8, 13]]

/-- `SBOX[6]`, rows 0 to 3 (41_round_function.md R146). -/
def sbox6 : List (List Nat) :=
  [[ 4, 11,  2, 14, 15,  0,  8, 13,  3, 12,  9,  7,  5, 10,  6,  1],
   [13,  0, 11,  7,  4,  9,  1, 10, 14,  3,  5, 12,  2, 15,  8,  6],
   [ 1,  4, 11, 13, 12,  3,  7, 14, 10, 15,  6,  8,  0,  5,  9,  2],
   [ 6, 11, 13,  8,  1,  4, 10,  7,  9,  5,  0, 15, 14,  2,  3, 12]]

/-- `SBOX[7]`, rows 0 to 3 (41_round_function.md R146). -/
def sbox7 : List (List Nat) :=
  [[13,  2,  8,  4,  6, 15, 11,  1, 10,  9,  3, 14,  5,  0, 12,  7],
   [ 1, 15, 13,  8, 10,  3,  7,  4, 12,  5,  6, 11,  0, 14,  9,  2],
   [ 7, 11,  4,  1,  9, 12, 14,  2,  0,  6, 10, 13, 15,  3,  5,  8],
   [ 2,  1, 14,  7,  4, 10,  8, 13, 15, 12,  9,  0,  3,  5,  6, 11]]

/-- The eight S-boxes (R146). -/
def tableSbox : List (List (List Nat)) := [sbox0, sbox1, sbox2, sbox3, sbox4, sbox5, sbox6, sbox7]

/-- `SBOX[i][row][col]` (00_scope.md R14), for i = 0..7, row = 0..3 and col = 0..15. -/
def sboxAt (i row col : Nat) : Nat := (((tableSbox[i]?).getD [])[row]?.getD [])[col]?.getD 0

/-- The eight table spaces of R50. -/
inductive Space where
  | pc1
  | shifts
  | pc2
  | e
  | sbox
  | p
  | ip
  | fp
  deriving DecidableEq, Repr

namespace Space

/-- The first address of a space (R50). -/
def first : Space → Nat
  | .sbox => 0
  | .pc1 | .shifts | .pc2 | .e | .p | .ip | .fp => 1

/-- The number of entries of a space (R50). -/
def entries : Space → Nat
  | .pc1 => 56
  | .shifts => 16
  | .pc2 => 48
  | .e => 48
  | .sbox => 512
  | .p => 32
  | .ip => 64
  | .fp => 64

/-- The width of an entry in bits (R50). -/
def width : Space → Nat
  | .pc1 => 7
  | .shifts => 2
  | .pc2 => 6
  | .e => 6
  | .sbox => 4
  | .p => 6
  | .ip => 7
  | .fp => 7

/-- The legal values of an entry (R50). -/
def legal : Space → Nat → Bool
  | .pc1, v => 1 ≤ v && v ≤ 64
  | .shifts, v => v == 1 || v == 2
  | .pc2, v => 1 ≤ v && v ≤ 56
  | .e, v => 1 ≤ v && v ≤ 32
  | .sbox, v => v ≤ 15
  | .p, v => 1 ≤ v && v ≤ 32
  | .ip, v => 1 ≤ v && v ≤ 64
  | .fp, v => 1 ≤ v && v ≤ 64

/-- The value at an address of a space; `ROM_SBOX` is addressed as `64*i + 16*row + col` (R51). -/
def entry : Space → Nat → Option Nat
  | .pc1, a => tablePC1[a - 1]?
  | .shifts, a => tableShifts[a - 1]?
  | .pc2, a => tablePC2[a - 1]?
  | .e, a => tableE[a - 1]?
  | .sbox, a => (tableSbox[a / 64]?).bind fun b => (b[a / 16 % 4]?).bind fun r => r[a % 16]?
  | .p, a => tableP[a - 1]?
  | .ip, a => tableIP[a - 1]?
  | .fp, a => tableFP[a - 1]?

end Space

/-- `MemRead(space, addr, n)` with n the entry width of the space (R51); nothing at an address outside it. -/
def memRead (sp : Space) (addr : Nat) : Option (BitVec sp.width) :=
  if sp.first ≤ addr ∧ addr < sp.first + sp.entries then (sp.entry addr).map (BitVec.ofNat sp.width) else none

end Sys2Proof.Machine
end

