-- ==== Sys2Proof/Machine/KeySchedule.lean ====
section
/-! DEFINITION. The key schedule: the phases KS_PC1 and KS_ROUND and the DECODE of DERIVE_KEYS (40_key_schedule.md
R110 to R116). -/

namespace Sys2Proof.Machine

/-- The permuted key `PERM(PC1, k)`, 56 bits (R110). -/
def permutedKey (k : Block) : BitVec 56 := perm 56 tablePC1 k

/-- `C0 = CD{1..28}` (R110). -/
def keyC0 (k : Block) : HalfKey := seg (permutedKey k) 1 28

/-- `D0 = CD{29..56}` (R110). -/
def keyD0 (k : Block) : HalfKey := seg (permutedKey k) 29 28

/-- `PERM(PC2, Cn ‖ Dn)`, a round subkey (R113). -/
def compress (c d : HalfKey) : Subkey := perm 48 tablePC2 (c ++ d)

/-- `KS[n]`, where `n` names an entry (10_state.md R27). -/
def readSubkey (s : State) (n : BitVec 5) : Option Subkey :=
  if n = 0#5 then none else s.ks[n.toNat - 1]?

/-- `KS[1] ‖ KS[2] ‖ ... ‖ KS[16]` (R115). -/
def subkeyBits (ks : List Subkey) : Bits := ks.flatMap toBits

/-- Step KS_PC1 (R110). -/
def stepKsPc1 (s : State) : State :=
  { s with c := keyC0 s.keyreg, d := keyD0 s.keyreg, rnd := 1#5, phase := .ksRound }

/-- The writes of KS_ROUND for round `RND`, given `SHIFTS[RND]`: the rotated halves and their subkey (R112, R113). -/
def rotateAndStore (k : Nat) (s : State) : State :=
  { s with
    c := rol k s.c
    d := rol k s.d
    ks := s.ks.setIfInBounds (s.rnd.toNat - 1) (compress (rol k s.c) (rol k s.d)) }

/-- What follows KS_ROUND, chosen in the order of R116. The finish of DERIVE_KEYS returns all sixteen subkeys, the
one this step wrote among them (R115; notes/assumptions/6.md). -/
def afterKsRound (s : State) : State :=
  if s.rnd.toNat < 16 then { s with rnd := s.rnd + 1#5, phase := .ksRound }
  else if opcodeOf s.cmdreg = some .deriveKeys then complete { s with outbuf := subkeyBits s.ks.toList }
  else if s.nblk = 0 then complete { s with outbuf := [] }
  else { s with phase := .blkLoad }

/-- Step KS_ROUND (R113, R116). -/
def stepKsRound (s : State) : Host.Outcome State Fault Refusal :=
  match memRead .shifts s.rnd.toNat with
  | none => .fault .tableAddress
  | some k => .next (afterKsRound (rotateAndStore k.toNat s))

/-- DECODE of DERIVE_KEYS (R115). -/
def decodeDeriveKeys (s : State) : State :=
  if s.keyop.length ≠ 64 then raise (.lengthContractViolation .key) s
  else { s with outbuf := [], keyreg := first64 s.keyop, nblk := 0, phase := .ksPc1 }

end Sys2Proof.Machine
end

