-- ==== Sys2Proof/Machine/Round.lean ====
section
/-! DEFINITION. The round function f (41_round_function.md R140 to R148). -/

namespace Sys2Proof.Machine

/-- `E(R)` (R140). -/
def expand (r : HalfBlock) : BitVec 48 := perm 48 tableE r

/-- `B_i = X{6i+1..6i+6}` (R143). -/
def group (x : BitVec 48) (i : Nat) : BitVec 6 := seg x (6 * i + 1) 6

/-- `row = 2*b1 + b6` (R144). -/
def sboxRow (b : BitVec 6) : Nat := 2 * (b.getMsbD 0).toNat + (b.getMsbD 5).toNat

/-- `col = 8*b2 + 4*b3 + 2*b4 + b5` (R144). -/
def sboxCol (b : BitVec 6) : Nat :=
  8 * (b.getMsbD 1).toNat + 4 * (b.getMsbD 2).toNat + 2 * (b.getMsbD 3).toNat + (b.getMsbD 4).toNat

/-- `SBOX[i][row_i][col_i]` for the group `b` (R144, R145). -/
def sboxOut (i : Nat) (b : BitVec 6) : Nat := sboxAt i (sboxRow b) (sboxCol b)

/-- `S(X)`: the eight 4-bit outputs, group 0 first (R145). -/
def substitute (x : BitVec 48) : BitVec 32 :=
  ofBits 32 ((List.range 8).flatMap fun i => bitsN 4 (sboxOut i (group x i)))

/-- `f(R, K)` (R148). -/
def roundF (r : HalfBlock) (k : Subkey) : HalfBlock := perm 32 tableP (substitute (expand r ^^^ k))

end Sys2Proof.Machine
end

