-- ==== Sys2Proof/Machine/Block.lean ====
section
/-! DEFINITION. The block transform: the phases IP, ROUND, SWAP and FP, and the DECODE of ENCRYPT_BLOCK
(42_block_transform.md R170 to R177). -/

namespace Sys2Proof.Machine

/-- Step IP (R172). -/
def stepIp (s : State) : State :=
  { s with
    l := seg (perm 64 tableIP s.blkin) 1 32
    r := seg (perm 64 tableIP s.blkin) 33 32
    rnd := 1#5
    phase := .round }

/-- The writes of Feistel round `RND` with subkey `k`, both from the old L and R (R173, 70_reset_and_hazards.md
R265), and the phase that follows. -/
def feistel (k : Subkey) (s : State) : State :=
  { s with
    l := s.r
    r := s.l ^^^ roundF s.r k
    rnd := if s.rnd.toNat < 16 then s.rnd + 1#5 else s.rnd
    phase := if s.rnd.toNat < 16 then .round else .swap }

/-- Step ROUND (R173). -/
def stepRound (s : State) : Host.Outcome State Fault Refusal :=
  match readSubkey s s.rnd with
  | none => .fault .tableAddress
  | some k => .next (feistel k s)

/-- Step SWAP (R174). -/
def stepSwap (s : State) : State := { s with preout := s.r ++ s.l, phase := .fp }

/-- Step FP (R175). -/
def stepFp (s : State) : State := { s with blkout := perm 64 tableFP s.preout, phase := .blkStore }

/-- DECODE of ENCRYPT_BLOCK: the key is checked first (R177). -/
def decodeEncryptBlock (s : State) : State :=
  if s.keyop.length ≠ 64 then raise (.lengthContractViolation .key) s
  else if s.dataop.length ≠ 64 then raise (.lengthContractViolation .data) s
  else { s with outbuf := [], keyreg := first64 s.keyop, nblk := 1, blk := 0, phase := .ksPc1 }

end Sys2Proof.Machine
end

