-- ==== Sys2Proof/Machine/Mode.lean ====
section
/-! DEFINITION. The mode controller: the phases BLK_LOAD and BLK_STORE, which ENCRYPT_BLOCK shares, and the DECODE of
ENCRYPT_ECB and ENCRYPT_CBC (43_mode_controller.md R200 to R210). -/

namespace Sys2Proof.Machine

/-- Whether the latched command is ENCRYPT_CBC (R204, R206), by all eight bits of CMDREG (notes/assumptions/14.md). -/
def chains (s : State) : Bool := decide (opcodeOf s.cmdreg = some .encryptCbc)

/-- Step BLK_LOAD (R204). -/
def stepBlkLoad (s : State) : Host.Outcome State Fault Refusal :=
  if s.blk < s.nblk then
    .next { s with
      blkin := if chains s then blockAt s.dataop s.blk ^^^ s.chain else blockAt s.dataop s.blk
      phase := .ip }
  else .fault .blockIndex

/-- Step BLK_STORE (R206), which ENCRYPT_BLOCK shares (notes/assumptions/16.md); blocks go in index order
(notes/assumptions/9.md). -/
def stepBlkStore (s : State) : State :=
  let t := { s with outbuf := s.outbuf ++ toBits s.blkout, chain := if chains s then s.blkout else s.chain }
  if s.blk + 1 < s.nblk then { t with blk := s.blk + 1, phase := .blkLoad } else complete t

/-- DECODE of ENCRYPT_ECB (R209, R200, R203). -/
def decodeEncryptEcb (s : State) : State :=
  if s.keyop.length < 64 then raise (.lengthContractViolation .key) s
  else if s.params.maxDataBits < s.dataop.length then raise (.capacityExceeded .data) s
  else { s with
    outbuf := []
    keyreg := first64 s.keyop
    nblk := blockCount s.params s.dataop
    blk := 0
    phase := .ksPc1 }

/-- DECODE of ENCRYPT_CBC (R210, R200, R201, R203); CHAIN gets the IV this step selects (R205;
notes/assumptions/7.md). -/
def decodeEncryptCbc (s : State) : State :=
  if s.keyop.length < 64 then raise (.lengthContractViolation .key) s
  else if s.ivop.length < 64 then raise (.lengthContractViolation .iv) s
  else if s.params.maxDataBits < s.dataop.length then raise (.capacityExceeded .data) s
  else { s with
    outbuf := []
    keyreg := first64 s.keyop
    ivreg := first64 s.ivop
    chain := first64 s.ivop
    nblk := blockCount s.params s.dataop
    blk := 0
    phase := .ksPc1 }

end Sys2Proof.Machine
end

