-- ==== Sys2Proof/Machine/Sequencer.lean ====
section
/-! DEFINITION. The sequencer: one transition of 42_block_transform.md R181, and its run to RESPOND. -/

namespace Sys2Proof.Machine

/-- DECODE of a command byte that R82 does not assign: no operand is checked (60_exceptions.md R231). -/
def decodeIllegal (s : State) : State := raise .illegalCommand s

/-- The decode transition (R180). -/
def stepDecode (s : State) : State :=
  match opcodeOf s.cmdreg with
  | some .deriveKeys => decodeDeriveKeys s
  | some .encryptBlock => decodeEncryptBlock s
  | some .encryptEcb => decodeEncryptEcb s
  | some .encryptCbc => decodeEncryptCbc s
  | none => decodeIllegal s

/-- In IDLE the core accepts the packet at the head of the bytes received, or waits (R180, 30_encoding.md R87, R90).
Bytes past the packet's end stay for the next one (notes/assumptions/12.md). -/
def stepIdle (s : State) : State :=
  match decode s.rx with
  | .ok (i, rest) => accept i.cmdByte i.key i.iv i.data { s with rx := rest }
  | .error _ => s

/-- One transition of R181 with no take by the host; in RESPOND the response is held. -/
def seqStep (s : State) : Host.Outcome State Fault Refusal :=
  match s.phase with
  | .idle => .next (stepIdle s)
  | .decode => .next (stepDecode s)
  | .ksPc1 => .next (stepKsPc1 s)
  | .ksRound => stepKsRound s
  | .blkLoad => stepBlkLoad s
  | .ip => .next (stepIp s)
  | .round => stepRound s
  | .swap => .next (stepSwap s)
  | .fp => .next (stepFp s)
  | .blkStore => .next (stepBlkStore s)
  | .respond => .next s

/-- At most `n` transitions, stopping at RESPOND. -/
def runToRespond : Nat → State → Host.Outcome State Fault Refusal
  | 0, s => .next s
  | n + 1, s =>
    if s.phase = .respond then .next s
    else
      match seqStep s with
      | .next t => runToRespond n t
      | .fault e => .fault e
      | .refused e => .refused e

/-- The transitions from KS_PC1 to RESPOND: 17 for the key schedule and 21 for each block (70_reset_and_hazards.md
R271). -/
def datapathSteps (s : State) : Nat := 17 + 21 * s.nblk

/-- A command from DECODE's result to RESPOND, as one step (R182). -/
def finishCommand (s : State) : Host.Outcome State Fault Refusal := runToRespond (datapathSteps s) s

end Sys2Proof.Machine
end

