-- ==== Sys2Proof/Machine/Commands.lean ====
section
/-! DEFINITION. The meaning of each command: accept, DECODE and the sequencer up to RESPOND, as the one atomic step
that 42_block_transform.md R182 allows. A command offered while `PHASE ≠ IDLE` is not accepted, and the core stays
as it is (R180, 70_reset_and_hazards.md R269; notes/assumptions/3.md). -/

namespace Sys2Proof.Machine

/-- `DERIVE_KEYS` (40_key_schedule.md R115). -/
def execDeriveKeys (key iv data : Bits) (s : State) : Host.Outcome State Fault Refusal :=
  if s.phase = .idle then finishCommand (decodeDeriveKeys (accept 0x01#8 key iv data s)) else .next s

/-- `ENCRYPT_BLOCK` (42_block_transform.md R177). -/
def execEncryptBlock (key iv data : Bits) (s : State) : Host.Outcome State Fault Refusal :=
  if s.phase = .idle then finishCommand (decodeEncryptBlock (accept 0x02#8 key iv data s)) else .next s

/-- `ENCRYPT_ECB` (43_mode_controller.md R209). -/
def execEncryptEcb (key iv data : Bits) (s : State) : Host.Outcome State Fault Refusal :=
  if s.phase = .idle then finishCommand (decodeEncryptEcb (accept 0x03#8 key iv data s)) else .next s

/-- `ENCRYPT_CBC` (43_mode_controller.md R210). -/
def execEncryptCbc (key iv data : Bits) (s : State) : Host.Outcome State Fault Refusal :=
  if s.phase = .idle then finishCommand (decodeEncryptCbc (accept 0x04#8 key iv data s)) else .next s

/-- `(illegal)`: the command completes with ILLEGAL_COMMAND (30_encoding.md R83). -/
def execIllegal (cmd : Byte) (key iv data : Bits) (s : State) : Host.Outcome State Fault Refusal :=
  if s.phase = .idle then finishCommand (decodeIllegal (accept cmd key iv data s)) else .next s

end Sys2Proof.Machine
end

