-- ==== Sys2Proof/Machine/Dispatch.lean ====
section
/-! DEFINITION. Every command's meaning. -/

namespace Sys2Proof.Machine

def exec (i : Instr) (s : State) : Host.Outcome State Fault Refusal :=
  match i with
  | .deriveKeys key iv data => Sys2Proof.Machine.execDeriveKeys key iv data s
  | .encryptBlock key iv data => Sys2Proof.Machine.execEncryptBlock key iv data s
  | .encryptEcb key iv data => Sys2Proof.Machine.execEncryptEcb key iv data s
  | .encryptCbc key iv data => Sys2Proof.Machine.execEncryptCbc key iv data s
  | .illegal cmd key iv data => Sys2Proof.Machine.execIllegal cmd key iv data s

end Sys2Proof.Machine
end

