-- ==== Sys2Proof/Machine/HostSide.lean ====
section
/-! DEFINITION. The host's move at a step (60_exceptions.md R245) and the fetch of the next command
(30_encoding.md R87). -/

namespace Sys2Proof.Machine

/-- Who moves at a step, and from which state, once the host's move is taken off its script. -/
inductive Turn where
  /-- The host asserts reset (R260). -/
  | reset (s : State)
  /-- The host takes the response on offer (R180). -/
  | take (s : State)
  /-- The core makes its own transition. -/
  | core (s : State)
  deriving DecidableEq, Repr

/-- The host's next move, where it is enabled: reset at any time, bytes while `REQ_READY = 1`, taking while
`RSP_VALID = 1` (R245). A move that is not enabled stays, and the core goes on (notes/assumptions/4.md). -/
def turn (s : State) : Turn :=
  match s.host with
  | [] => .core s
  | .wait :: h => .core { s with host := h }
  | .reset :: h => .reset { s with host := h }
  | .send bs :: h => if s.phase = .idle then .core { s with host := h, rx := s.rx ++ bs } else .core s
  | .take :: h => if s.phase = .respond then .take { s with host := h } else .core s

/-- The command that runs as a whole at this step: the complete packet at the head of the bytes received, in IDLE
and at the grain of commands (42_block_transform.md R180, R182). -/
def fetch (s : State) : Option (Instr × State) :=
  if s.phase = .idle ∧ s.grain = .command then
    match decode s.rx with
    | .ok (i, rest) => some (i, { s with rx := rest })
    | .error _ => none
  else none

end Sys2Proof.Machine
end

