-- ==== Sys2Proof/Machine/Step.lean ====
section
/-! DEFINITION. One step: the host's move, then a whole command (42_block_transform.md R182) or one transition of
the sequencer (R181). -/

namespace Sys2Proof.Machine

def step (s : State) : Host.Outcome State Fault Refusal :=
  match turn s with
  | .reset t => .next (resetEvent t)
  | .take t => .next (takeResponse t)
  | .core t =>
    match fetch t with
    | some (i, u) => exec i u
    | none => seqStep t

/-- The packet of a table word on offer to an idle core whose host makes no other move (notes/assumptions/5.md). -/
def State.withFetchWord (s : State) (nbits w : Nat) : State :=
  { s with grain := .command, phase := .idle, rx := tablePacket nbits w, host := [] }

end Sys2Proof.Machine
end

