-- ==== Sys2Proof/Machine/Assembler.lean ====
section
/-! DEFINITION. The assembler of 30_encoding.md R91 to R93: one line of text to one command. It is a convenience
outside the core, which never sees text (R92, 92_eei_decisions.md D28). What the rules leave open about blanks
(also inside a literal, a name or `||`), letter case and malformed lines is in notes/assumptions/15.md. -/

namespace Sys2Proof.Machine.Assembler

/-- Why a line is refused. -/
inductive AsmError where
  /-- A text literal is not closed on its line. -/
  | unterminatedText
  /-- The first word is no mnemonic of R91 and not `.cmd`. -/
  | unknownMnemonic
  /-- An operand is not `key=`, `iv=` or `data=` with a literal, or `.cmd` has no byte. -/
  | malformedOperand
  /-- An operand is written twice. -/
  | repeatedOperand
  /-- A literal is none of R92. -/
  | badLiteral
  /-- A text literal has a character outside 0..255 (R92). -/
  | characterOutsideByte
  /-- An operand has more bits than a length field can hold (R84). -/
  | operandTooLong
  deriving DecidableEq, Repr

/-- A line outside its text literals is characters; a text literal is one piece. -/
inductive Piece where
  | ch (c : Char)
  | text (cs : List Char)
  deriving DecidableEq, Repr

/-- The quotation mark. -/
def quote : Char := Char.ofNat 34

/-- The brackets of the empty operand (R92). -/
def openBrace : Char := Char.ofNat 123

/-- See `openBrace`. -/
def closeBrace : Char := Char.ofNat 125

/-- The concatenation sign (R92). -/
def concatSign : Char := Char.ofNat 0x2016

/-- Whether a character separates words. -/
def isBlank (c : Char) : Bool := c = ' ' || c = '\t'

/-- The pieces of a line up to its comment (R91). `open?` holds the characters of a text literal begun. -/
def pieces : List Char → Option (List Char) → Except AsmError (List Piece)
  | [], none => .ok []
  | [], some _ => .error .unterminatedText
  | c :: cs, none =>
    if c = ';' then .ok []
    else if c = quote then pieces cs (some [])
    else (pieces cs none).map (.ch c :: ·)
  | c :: cs, some t =>
    if c = quote then (pieces cs none).map (.text t.reverse :: ·)
    else pieces cs (some (c :: t))

/-- `||` is the concatenation sign (R92). -/
def joinBars : List Piece → List Piece
  | .ch '|' :: .ch '|' :: ps => .ch concatSign :: joinBars ps
  | p :: ps => p :: joinBars ps
  | [] => []

/-- The parts of a sequence between the pieces equal to `sep`. -/
def splitOn (sep : Piece) : List Piece → List (List Piece)
  | [] => [[]]
  | p :: ps =>
    if p = sep then [] :: splitOn sep ps
    else
      match splitOn sep ps with
      | [] => [[p]]
      | q :: qs => (p :: q) :: qs

/-- The value of a hexadecimal digit. -/
def hexDigit (c : Char) : Option Nat :=
  if '0' ≤ c ∧ c ≤ '9' then some (c.toNat - 48)
  else if 'A' ≤ c ∧ c ≤ 'F' then some (c.toNat - 55)
  else if 'a' ≤ c ∧ c ≤ 'f' then some (c.toNat - 87)
  else none

/-- The value of a binary digit. -/
def binDigit (c : Char) : Option Nat := if c = '0' then some 0 else if c = '1' then some 1 else none

/-- Digits of `n` bits each (R92, 00_scope.md R11). -/
def digitBits (n : Nat) (value : Char → Option Nat) : List Piece → Except AsmError Bits
  | [] => .ok []
  | .ch c :: ps =>
    match value c with
    | some x => (digitBits n value ps).map (bitsN n x ++ ·)
    | none => .error .badLiteral
  | .text _ :: _ => .error .badLiteral

/-- `"<text>"`: 8 bits per character, most significant bit first (R92). -/
def textBits : List Char → Except AsmError Bits
  | [] => .ok []
  | c :: cs => if c.toNat ≤ 255 then (textBits cs).map (bitsN 8 c.toNat ++ ·) else .error .characterOutsideByte

/-- One literal (R92). -/
def atomBits : List Piece → Except AsmError Bits
  | [.text cs] => textBits cs
  | [.ch a, .ch b] => if a = openBrace ∧ b = closeBrace then .ok [] else .error .badLiteral
  | .ch '0' :: .ch 'x' :: d :: ds => digitBits 4 hexDigit (d :: ds)
  | .ch '0' :: .ch 'b' :: d :: ds => digitBits 1 binDigit (d :: ds)
  | _ => .error .badLiteral

/-- The concatenation of literals. -/
def concatBits : List (List Piece) → Except AsmError Bits
  | [] => .ok []
  | a :: as =>
    match atomBits a, concatBits as with
    | .ok b, .ok bs => .ok (b ++ bs)
    | .error e, _ => .error e
    | _, .error e => .error e

/-- An operand as written: literals joined by the concatenation sign (R92). -/
def operandBits (ps : List Piece) : Except AsmError Bits := concatBits (splitOn (.ch concatSign) (joinBars ps))

/-- The operands a line writes; one that is not written is sent with length 0 (R91). -/
structure Written where
  key : Option Bits
  iv : Option Bits
  data : Option Bits
  deriving DecidableEq, Repr

/-- The pieces of a word. -/
def word (cs : List Char) : List Piece := cs.map .ch

/-- The word before `=` and the operand after it. -/
def nameAndOperand (ps : List Piece) : List Piece × List Piece :=
  (ps.takeWhile (· ≠ .ch '='), (ps.dropWhile (· ≠ .ch '=')).drop 1)

/-- One `name=<operand>` of a line; any order (R91). -/
def writeOperand (w : Written) (item : List Piece) : Except AsmError Written :=
  match operandBits (nameAndOperand item).2 with
  | .error e => .error e
  | .ok b =>
    if (nameAndOperand item).1 = word ['k', 'e', 'y'] then
      if w.key.isNone then .ok { w with key := some b } else .error .repeatedOperand
    else if (nameAndOperand item).1 = word ['i', 'v'] then
      if w.iv.isNone then .ok { w with iv := some b } else .error .repeatedOperand
    else if (nameAndOperand item).1 = word ['d', 'a', 't', 'a'] then
      if w.data.isNone then .ok { w with data := some b } else .error .repeatedOperand
    else .error .malformedOperand

/-- The `name=<operand>` items of a line. -/
def writeOperands : Written → List (List Piece) → Except AsmError Written
  | w, [] => .ok w
  | w, item :: items =>
    match writeOperand w item with
    | .ok w => writeOperands w items
    | .error e => .error e

/-- The items of a line between commas; a line may write none. -/
def items (ps : List Piece) : List (List Piece) := if ps = [] then [] else splitOn (.ch ',') ps

/-- The command of a byte and the written operands. -/
def commandOfWritten (cmd : Byte) (its : List (List Piece)) : Except AsmError Instr :=
  match writeOperands { key := none, iv := none, data := none } its with
  | .error e => .error e
  | .ok w =>
    if (commandOf cmd (w.key.getD []) (w.iv.getD []) (w.data.getD [])).wf then
      .ok (commandOf cmd (w.key.getD []) (w.iv.getD []) (w.data.getD []))
    else .error .operandTooLong

/-- The byte of a mnemonic (R82, R91); mnemonics are upper case. -/
def mnemonicByte (m : List Piece) : Option Byte :=
  if m = word ['D', 'E', 'R', 'I', 'V', 'E', '_', 'K', 'E', 'Y', 'S'] then some 0x01#8
  else if m = word ['E', 'N', 'C', 'R', 'Y', 'P', 'T', '_', 'B', 'L', 'O', 'C', 'K'] then some 0x02#8
  else if m = word ['E', 'N', 'C', 'R', 'Y', 'P', 'T', '_', 'E', 'C', 'B'] then some 0x03#8
  else if m = word ['E', 'N', 'C', 'R', 'Y', 'P', 'T', '_', 'C', 'B', 'C'] then some 0x04#8
  else none

/-- Whether a piece is blank. -/
def Piece.blank : Piece → Bool
  | .ch c => isBlank c
  | .text _ => false

/-- The command of a line's pieces: a mnemonic or `.cmd <byte>`, then the items. Every blank outside a text
literal is dropped, also inside an operand name, a literal or `||` (DESIGN CHOICE, notes/assumptions/15.md). -/
def assemblePieces (ps : List Piece) : Except AsmError Instr :=
  let m := ps.takeWhile (!·.blank)
  let its := items ((ps.dropWhile (!·.blank)).filter (!·.blank))
  match mnemonicByte m with
  | some cmd => commandOfWritten cmd its
  | none =>
    if m = word ['.', 'c', 'm', 'd'] then
      match its with
      | [] => .error .malformedOperand
      | byte :: its =>
        match operandBits byte with
        | .error e => .error e
        | .ok b => if b.length = 8 then commandOfWritten (ofBits 8 b) its else .error .malformedOperand
    else .error .unknownMnemonic

/-- A line of R91 or R93 to its command; nothing for a line that is blank or only a comment. -/
def assemble (line : List Char) : Except AsmError (Option Instr) :=
  match pieces line none with
  | .error e => .error e
  | .ok ps =>
    match ps.dropWhile Piece.blank with
    | [] => .ok none
    | p :: ps => (assemblePieces (p :: ps)).map some

end Sys2Proof.Machine.Assembler
end

