-- ==== Sys2Proof/Machine/Reference.lean ====
section
/-! DEFINITION. The commands as functions, independent of the sequencer: `KeySchedule` (40_key_schedule.md R114),
`DES_ENC` (42_block_transform.md R176), `ECB` and `CBC` (43_mode_controller.md R209, R210), `Exec` (R182) and the
step counts of 70_reset_and_hazards.md R271. No meaning calls them; statements compare the machine with them. -/

namespace Sys2Proof.Machine

open Sys2Proof.Config

/-- The subkeys for the rotations `ks`, from halves `c` and `d` (R112, R113). -/
def scheduleFrom : List Nat → HalfKey → HalfKey → List Subkey
  | [], _, _ => []
  | k :: ks, c, d => compress (rol k c) (rol k d) :: scheduleFrom ks (rol k c) (rol k d)

/-- `KeySchedule(k)`: K1 to K16 (R114). -/
def keySchedule (k : Block) : List Subkey := scheduleFrom tableShifts (keyC0 k) (keyD0 k)

/-- The Feistel rounds with the subkeys `ks`: `(L, R) = (R, L ⊕ f(R, K[n]))` (R176). -/
def rounds : List Subkey → HalfBlock × HalfBlock → HalfBlock × HalfBlock
  | [], x => x
  | k :: ks, x => rounds ks (x.2, x.1 ^^^ roundF x.2 k)

/-- `(L0, R0)` of a block (R172). -/
def initialHalves (p : Block) : HalfBlock × HalfBlock :=
  (seg (perm 64 tableIP p) 1 32, seg (perm 64 tableIP p) 33 32)

/-- `PERM(FP, R16 ‖ L16)` (R174, R175). -/
def finalBlock (x : HalfBlock × HalfBlock) : Block := perm 64 tableFP (x.2 ++ x.1)

/-- `DES_ENC(p, K)` (R176). -/
def desEnc (p : Block) (K : List Subkey) : Block := finalBlock (rounds K (initialHalves p))

/-- The blocks of a data operand, in order (R202). -/
def dataBlocks (p : Params) (d : Bits) : List Block := (List.range (blockCount p d)).map (blockAt d)

/-- Concatenated blocks as a bit sequence (R208). -/
def blockBits (bs : List Block) : Bits := bs.flatMap toBits

/-- The ECB ciphertext blocks under the schedule `K` (R209). -/
def ecbBlocks (K : List Subkey) (bs : List Block) : List Block := bs.map fun b => desEnc b K

/-- The CBC ciphertext blocks under the schedule `K` from the chaining value `chain` (R210). -/
def cbcBlocks (K : List Subkey) : Block → List Block → List Block
  | _, [] => []
  | chain, b :: bs => desEnc (b ^^^ chain) K :: cbcBlocks K (desEnc (b ^^^ chain) K) bs

/-- The chaining value that enters block `j`: the initial value, then the previous ciphertext block (R205, R206). -/
def chainBefore (K : List Subkey) : Block → List Block → Nat → Block
  | chain, _, 0 => chain
  | chain, [], _ + 1 => chain
  | chain, b :: bs, j + 1 => chainBefore K (desEnc (b ^^^ chain) K) bs j

/-- `ECB(k, d)` (R209). -/
def ecb (p : Params) (k : Block) (d : Bits) : Bits := blockBits (ecbBlocks (keySchedule k) (dataBlocks p d))

/-- `CBC(k, v, d)` (R210). -/
def cbc (p : Params) (k v : Block) (d : Bits) : Bits := blockBits (cbcBlocks (keySchedule k) v (dataBlocks p d))

/-- The plaintext blocks a command runs over, once its checks pass (R177, R202; none for DERIVE_KEYS, R115). -/
def plainBlocks (p : Params) (op : Opcode) (data : Bits) : List Block :=
  match op with
  | .deriveKeys => []
  | .encryptBlock => [first64 data]
  | .encryptEcb | .encryptCbc => dataBlocks p data

/-- The ciphertext blocks of a command under the schedule `K`, with the initial chaining value `v` for CBC. -/
def cipherBlocks (op : Opcode) (K : List Subkey) (v : Block) (bs : List Block) : List Block :=
  match op with
  | .deriveKeys | .encryptBlock | .encryptEcb => ecbBlocks K bs
  | .encryptCbc => cbcBlocks K v bs

/-- The result of a command whose checks pass (R182). -/
def resultBits (p : Params) (op : Opcode) (key iv data : Bits) : Bits :=
  match op with
  | .deriveKeys => subkeyBits (keySchedule (first64 key))
  | .encryptBlock => toBits (desEnc (first64 data) (keySchedule (first64 key)))
  | .encryptEcb => ecb p (first64 key) data
  | .encryptCbc => cbc p (first64 key) (first64 iv) data

/-- `Exec(cmd, key, iv, data)`: the response of a command (R182). -/
def execRef (p : Params) (cmd : Byte) (key iv data : Bits) : Response :=
  match firstError p cmd key iv data, opcodeOf cmd with
  | some e, _ => { status := e.status, diag := e.diag, out := [] }
  | none, some op => { status := statusOk, diag := 0#8, out := resultBits p op key iv data }
  | none, none => { status := CmdError.illegalCommand.status, diag := CmdError.illegalCommand.diag, out := [] }

/-- Core steps from accept to take of a command, both included (R271). -/
def stepCount (p : Params) (cmd : Byte) (key iv data : Bits) : Nat :=
  match firstError p cmd key iv data, opcodeOf cmd with
  | some _, _ => 3
  | none, some op => 20 + 21 * (plainBlocks p op data).length
  | none, none => 3

end Sys2Proof.Machine
end

