-- ==== Sys2Proof/Safety.lean ====
section
/-! DEFINITION. The invariant of the machine, phase by phase, and what counts as a safe run: the sequencer never
forms a table address or a block index outside its range (20_memory.md R51, 43_mode_controller.md R202). -/

namespace Sys2Proof.Machine

/-- The operation of the latched command (30_encoding.md R82). -/
abbrev State.op (s : State) : Option Opcode := opcodeOf s.cmdreg

/-- The plaintext blocks of the latched command. -/
def latchedPlain (s : State) : List Block :=
  match s.op with
  | some op => plainBlocks s.params op s.dataop
  | none => []

/-- The ciphertext blocks of the latched command. -/
def latchedCipher (s : State) : List Block :=
  match s.op with
  | some op => cipherBlocks op (keySchedule s.keyreg) s.ivreg (latchedPlain s)
  | none => []

/-- The latched command passed its checks and DECODE wrote what it writes (42_block_transform.md R180). -/
abbrev Decoded (s : State) : Prop :=
  firstError s.params s.cmdreg s.keyop s.ivop s.dataop = none ∧
  s.keyreg = first64 s.keyop ∧
  (s.op = some .encryptCbc → s.ivreg = first64 s.ivop) ∧
  s.nblk = (latchedPlain s).length

/-- The key-schedule phases: no result and no block yet. -/
abbrev KeyStage (s : State) : Prop :=
  Decoded s ∧ s.outbuf = [] ∧ (s.op ≠ some .deriveKeys → s.blk = 0) ∧
  (s.op = some .encryptCbc → s.chain = s.ivreg)

/-- The halves `C` and `D` after the first `n` rotations of the schedule (40_key_schedule.md R112). -/
def halvesAfter (k : Block) (n : Nat) : HalfKey × HalfKey :=
  ((tableShifts.take n).foldl (fun c k => rol k c) (keyC0 k), (tableShifts.take n).foldl (fun d k => rol k d) (keyD0 k))

/-- KS_ROUND with `RND = n`: `C` and `D` have gone through n - 1 rotations and the first n - 1 subkeys are written
(R25, R27, R113). -/
abbrev KeyRound (s : State) : Prop :=
  1 ≤ s.rnd.toNat ∧ s.rnd.toNat ≤ 16 ∧
  (s.c, s.d) = halvesAfter s.keyreg (s.rnd.toNat - 1) ∧
  s.ks.toList.take (s.rnd.toNat - 1) = (keySchedule s.keyreg).take (s.rnd.toNat - 1)

/-- The block phases: all sixteen subkeys are those of the key (70_reset_and_hazards.md R266), block `BLK` is one of
the command's, OUTBUF holds the ciphertext of the blocks before it and CHAIN what enters it (43_mode_controller.md
R204 to R206). -/
abbrev BlockStage (s : State) : Prop :=
  Decoded s ∧ s.op ≠ some .deriveKeys ∧ s.ks.toList = keySchedule s.keyreg ∧ s.blk < s.nblk ∧
  s.outbuf = blockBits ((latchedCipher s).take s.blk) ∧
  (s.op = some .encryptCbc → s.chain = chainBefore (keySchedule s.keyreg) s.ivreg (latchedPlain s) s.blk)

/-- What BLK_LOAD puts into BLKIN (R204). -/
def blockInput (s : State) : Block :=
  if chains s then blockAt s.dataop s.blk ^^^ s.chain else blockAt s.dataop s.blk

/-- The phases after BLK_LOAD. -/
abbrev InBlock (s : State) : Prop := BlockStage s ∧ s.blkin = blockInput s

/-- The Feistel halves of BLKIN after all sixteen rounds (42_block_transform.md R173). -/
def halvesOut (s : State) : HalfBlock × HalfBlock := rounds s.ks.toList (initialHalves s.blkin)

/-- What each phase may rely on. In RESPOND the response on offer is `Exec` of the latched command (R182). -/
abbrev PhaseInv (s : State) : Prop :=
  (s.phase = .ksPc1 → KeyStage s) ∧
  (s.phase = .ksRound → KeyStage s ∧ KeyRound s) ∧
  (s.phase = .blkLoad → BlockStage s) ∧
  (s.phase = .ip → InBlock s) ∧
  (s.phase = .round → InBlock s ∧ 1 ≤ s.rnd.toNat ∧ s.rnd.toNat ≤ 16 ∧
    (s.l, s.r) = rounds (s.ks.toList.take (s.rnd.toNat - 1)) (initialHalves s.blkin)) ∧
  (s.phase = .swap → InBlock s ∧ (s.l, s.r) = halvesOut s) ∧
  (s.phase = .fp → InBlock s ∧ s.preout = (halvesOut s).2 ++ (halvesOut s).1) ∧
  (s.phase = .blkStore → InBlock s ∧ s.blkout = desEnc s.blkin s.ks.toList) ∧
  (s.phase = .respond → s.response = execRef s.params s.cmdreg s.keyop s.ivop s.dataop)

/-- The invariant: legal parameters (00_scope.md R9), a block count that fits the 27 bits of NBLK (10_state.md R22),
and what each phase may rely on. -/
abbrev Inv (s : State) : Prop := s.params.wf ∧ s.nblk ≤ 2 ^ 26 ∧ PhaseInv s

/-- `n` steps, stopping at the first fault or refusal. -/
def run : Nat → State → Host.Outcome State Fault Refusal
  | 0, s => .next s
  | n + 1, s =>
    match step s with
    | .next t => run n t
    | .fault e => .fault e
    | .refused e => .refused e

/-- A run that goes on for `n` steps without a fault or a refusal, for every `n`. -/
def RunsSafely (s : State) : Prop := ∀ n, ∃ t, run n s = .next t

end Sys2Proof.Machine
end

