-- ==== Sys2Proof/Certificates/Slice0/Obligations.lean ====
section
/-! DEFINITION. The statements about the machine, from the numbered rules of spec/. -/

namespace Sys2Proof.Claims

open Sys2Proof.Machine

/-- What no command touches: the parameters, the grain, the bytes received, and the host's side. -/
abbrev HostSideKept (s t : State) : Prop :=
  t.params = s.params ∧ t.grain = s.grain ∧ t.rx = s.rx ∧ t.host = s.host ∧ t.taken = s.taken

/-- The command and its operands are latched (42_block_transform.md R180). -/
abbrev Latched (cmd : Byte) (key iv data : Bits) (t : State) : Prop :=
  t.cmdreg = cmd ∧ t.keyop = key ∧ t.ivop = iv ∧ t.dataop = data

/-- The response is on offer with STATUS OK, DIAG 0 and the result `out` (30_encoding.md R88, R89). -/
abbrev Answers (t : State) (out : Bits) : Prop :=
  t.phase = .respond ∧ t.status = 0#8 ∧ t.diag = 0#8 ∧ t.outbuf = out

/-- The state after a command that ends with an error: the operand latches, STATUS, DIAG, OUTBUF (empty) and PHASE
are written and nothing else (60_exceptions.md R232, R236). -/
abbrev erred (cmd : Byte) (key iv data : Bits) (status diag : Byte) (s : State) : State :=
  { s with
    cmdreg := cmd
    keyop := key
    ivop := iv
    dataop := data
    status := status
    diag := diag
    outbuf := []
    phase := .respond }

/-- The bytes of a packet with operand fields of any bytes: pad bits of any value (30_encoding.md R80, R84). -/
abbrev rawPacket (cmd : Byte) (klen : Nat) (kf : List Byte) (vlen : Nat) (vf : List Byte) (dlen : Nat)
    (df : List Byte) : List Byte :=
  cmd :: (be32 klen ++ kf ++ (be32 vlen ++ vf ++ (be32 dlen ++ df)))

/-- A field of `len` bits: a 32-bit length and that many bits in whole bytes (30_encoding.md R80, R84). -/
abbrev FieldOf (len : Nat) (field : List Byte) : Prop := len < 2 ^ 32 ∧ field.length = nb len

/-- The response a command of the machine offers: `Exec` of R182 on its byte and operands. -/
abbrev responseOf (p : Config.Params) (i : Instr) : Response := execRef p i.cmdByte i.key i.iv i.data

/-- Two keys agree on every position but the parity positions 8, 16, ..., 64 (40_key_schedule.md R117). -/
abbrev SameButParity (k k' : Block) : Prop := ∀ j, j < 64 → (j + 1) % 8 ≠ 0 → k.getMsbD j = k'.getMsbD j

/-- The next phase that 42_block_transform.md R181 gives, where no host move intervenes and the grain is one
transition a step. -/
def nextPhase (s : State) : Phase :=
  match s.phase with
  | .idle => if (decode s.rx).toOption.isSome then .decode else .idle
  | .decode => if (firstError s.params s.cmdreg s.keyop s.ivop s.dataop).isSome then .respond else .ksPc1
  | .ksPc1 => .ksRound
  | .ksRound =>
    if s.rnd.toNat < 16 then .ksRound
    else if s.op = some .deriveKeys then .respond
    else if s.nblk = 0 then .respond
    else .blkLoad
  | .blkLoad => .ip
  | .ip => .round
  | .round => if s.rnd.toNat < 16 then .round else .swap
  | .swap => .fp
  | .fp => .blkStore
  | .blkStore => if s.blk + 1 < s.nblk then .blkLoad else .respond
  | .respond => .respond

/-- The table of 70_reset_and_hazards.md R271: core steps from accept to take, both counted. -/
def stepsToTake (p : Config.Params) (i : Instr) : Nat :=
  match firstError p i.cmdByte i.key i.iv i.data, i with
  | some _, _ => 3
  | none, .deriveKeys _ _ _ => 20
  | none, .encryptBlock _ _ _ => 41
  | none, .encryptEcb _ _ d => 20 + 21 * blockCount p d
  | none, .encryptCbc _ _ d => 20 + 21 * blockCount p d
  | none, .illegal _ _ _ _ => 3

/-- The mnemonics of 30_encoding.md R91 with the bytes R82 gives them. -/
def mnemonics : List (List Char × Byte) :=
  [(['D', 'E', 'R', 'I', 'V', 'E', '_', 'K', 'E', 'Y', 'S'], 0x01#8),
    (['E', 'N', 'C', 'R', 'Y', 'P', 'T', '_', 'B', 'L', 'O', 'C', 'K'], 0x02#8),
    (['E', 'N', 'C', 'R', 'Y', 'P', 'T', '_', 'E', 'C', 'B'], 0x03#8),
    (['E', 'N', 'C', 'R', 'Y', 'P', 'T', '_', 'C', 'B', 'C'], 0x04#8)]

/-- A character of a line as it stands, or a text literal with its quotation marks (R92). -/
def pieceText : Assembler.Piece → List Char
  | .ch c => [c]
  | .text cs => Assembler.quote :: (cs ++ [Assembler.quote])

/-- A piece of an operand: no blank, no comma, no start of a comment, and every quotation mark is a text literal's. -/
def PlainPiece : Assembler.Piece → Prop
  | .ch c => c ≠ ' ' ∧ c ≠ '\t' ∧ c ≠ ',' ∧ c ≠ ';' ∧ c ≠ Assembler.quote
  | .text cs => Assembler.quote ∉ cs

/-- The operand `b` is written as `name=<literal>`, or it is not written and has length 0 (R91). -/
def WrittenAs (name : List Char) (item : Option (List Assembler.Piece)) (b : Bits) : Prop :=
  b.length < 2 ^ 32 ∧
  ((item = none ∧ b = []) ∨
    ∃ ps, item = some (Assembler.word name ++ .ch '=' :: ps) ∧ (∀ p ∈ ps, PlainPiece p) ∧
      Assembler.operandBits ps = .ok b)

/-- A line: its first word, a space, and its items with a comma and a space between them. -/
def lineOf (first : List Char) (its : List (List Assembler.Piece)) : List Char :=
  first ++ ' ' :: [',', ' '].intercalate (its.map fun ps => ps.flatMap pieceText)

/-- The sixteen hexadecimal digits in order. -/
def hexDigits : List Char :=
  ['0', '1', '2', '3', '4', '5', '6', '7', '8', '9', 'A', 'B', 'C', 'D', 'E', 'F']

/-- The host's script that sends each command as one packet and takes each response before the next. -/
def script (cmds : List Instr) : List HostMove := cmds.flatMap fun i => [.send (encode i), .take]

end Sys2Proof.Claims

open Sys2Proof Sys2Proof.Machine Sys2Proof.Claims

/-! ### Packets -/

/-- 30_encoding.md R80, R84, R85, R87: decoding an encoded well-formed command gives it back, and the next packet
starts right after it. -/
def Obligations.DecodeOfEncode : Prop :=
  ∀ (i : Instr) (rest : List Byte), i.wf = true → decode (encode i ++ rest) = .ok (i, rest)

/-- 30_encoding.md R87, R95: every complete packet decodes, whatever its command byte, its lengths and its pad bits,
to the command of its byte on the first LEN bits of each field, and is as long as its length fields say. -/
def Obligations.DecodeReadsRawPacket : Prop :=
  ∀ (cmd : Byte) (klen vlen dlen : Nat) (kf vf df rest : List Byte),
    FieldOf klen kf → FieldOf vlen vf → FieldOf dlen df →
    decode (rawPacket cmd klen kf vlen vf dlen df ++ rest) =
      .ok (commandOf cmd ((unpackBits kf).take klen) ((unpackBits vf).take vlen) ((unpackBits df).take dlen), rest)

/-- 30_encoding.md R85 (and 20_memory.md R56): operand bit j is bit 7 - ((j-1) mod 8) of byte floor((j-1)/8) of its
field, so packets that differ only in pad bits are the same command. -/
def Obligations.OperandBitPlacement : Prop :=
  ∀ (cmd : Byte) (klen vlen dlen : Nat) (kf vf df kf' vf' df' : List Byte),
    FieldOf klen kf → FieldOf vlen vf → FieldOf dlen df → FieldOf klen kf' → FieldOf vlen vf' → FieldOf dlen df' →
    (∃ i, decode (rawPacket cmd klen kf vlen vf dlen df) = .ok (i, []) ∧
      i.key.length = klen ∧ i.iv.length = vlen ∧ i.data.length = dlen ∧
      (∀ j, 1 ≤ j → j ≤ klen → i.key[j - 1]? = (kf[(j - 1) / 8]?).map fun b => b.getLsbD (7 - (j - 1) % 8)) ∧
      (∀ j, 1 ≤ j → j ≤ vlen → i.iv[j - 1]? = (vf[(j - 1) / 8]?).map fun b => b.getLsbD (7 - (j - 1) % 8)) ∧
      (∀ j, 1 ≤ j → j ≤ dlen → i.data[j - 1]? = (df[(j - 1) / 8]?).map fun b => b.getLsbD (7 - (j - 1) % 8))) ∧
    ((unpackBits kf).take klen = (unpackBits kf').take klen → (unpackBits vf).take vlen = (unpackBits vf').take vlen →
      (unpackBits df).take dlen = (unpackBits df').take dlen →
      decode (rawPacket cmd klen kf vlen vf dlen df) = decode (rawPacket cmd klen kf' vlen vf' dlen df'))

/-- 30_encoding.md R82, R83: the four assigned command bytes select their operation, every other byte is illegal. -/
def Obligations.CommandByteSelectsOperation : Prop :=
  ∀ (cmd : Byte) (k v d : Bits),
    (cmd = 0x01#8 → commandOf cmd k v d = .deriveKeys k v d) ∧
    (cmd = 0x02#8 → commandOf cmd k v d = .encryptBlock k v d) ∧
    (cmd = 0x03#8 → commandOf cmd k v d = .encryptEcb k v d) ∧
    (cmd = 0x04#8 → commandOf cmd k v d = .encryptCbc k v d) ∧
    (cmd ∉ [0x01#8, 0x02#8, 0x03#8, 0x04#8] → commandOf cmd k v d = .illegal cmd k v d)

/-- 30_encoding.md R90: a stream that ends inside a packet leaves the idle core as it is, at either grain. -/
def Obligations.IncompletePacketWaits : Prop :=
  ∀ (s : State) (cmd : Byte) (klen vlen dlen : Nat) (kf vf df more : List Byte),
    FieldOf klen kf → FieldOf vlen vf → FieldOf dlen df → more ≠ [] →
    s.rx ++ more = rawPacket cmd klen kf vlen vf dlen df → s.phase = .idle → s.host = [] → step s = .next s

/-- 30_encoding.md R82, R83, R94 and 95_test_vectors.md section 6, 7: packets written out byte by byte decode to the
commands they stand for (fixed words). -/
def Obligations.SamplePacketsDecode : Prop :=
  decode [0x02#8, 0, 0, 0, 0x40#8, 0x13#8, 0x34#8, 0x57#8, 0x79#8, 0x9B#8, 0xBC#8, 0xDF#8, 0xF1#8, 0, 0, 0, 0,
      0, 0, 0, 0x40#8, 0x01#8, 0x23#8, 0x45#8, 0x67#8, 0x89#8, 0xAB#8, 0xCD#8, 0xEF#8] =
    .ok (.encryptBlock (toBits 0x133457799BBCDFF1#64) [] (toBits 0x0123456789ABCDEF#64), []) ∧
  decode [0x01#8, 0, 0, 0, 0x08#8, 0x80#8, 0, 0, 0, 0, 0, 0, 0, 0] =
    .ok (.deriveKeys [true, false, false, false, false, false, false, false] [] [], []) ∧
  decode [0x03#8, 0, 0, 0, 0, 0, 0, 0, 0, 0, 0, 0, 0x01#8, 0xFF#8] = .ok (.encryptEcb [] [] [true], []) ∧
  decode [0x04#8, 0, 0, 0, 0, 0, 0, 0, 0x02#8, 0x40#8, 0, 0, 0, 0, 0x05#8] =
    .ok (.encryptCbc [] [false, true] [], [0x05#8]) ∧
  decode [0x14#8, 0, 0, 0, 0, 0, 0, 0, 0, 0, 0, 0, 0] = .ok (.illegal 0x14#8 [] [] [], [])

/-! ### Assembler text -/

open Sys2Proof.Machine.Assembler in
/-- 30_encoding.md R92: what each literal stands for, that a character outside 0..255 is refused, and that both signs
concatenate. -/
def Obligations.OperandLiteralBits : Prop :=
  (∀ (x : Nat) (xs : List Nat), (∀ d ∈ x :: xs, d < 16) →
    operandBits (.ch '0' :: .ch 'x' :: (x :: xs).map fun d => .ch (hexDigits.getD d ' ')) =
      .ok ((x :: xs).flatMap (bitsN 4))) ∧
  (∀ (b : Bool) (bs : Bits),
    operandBits (.ch '0' :: .ch 'b' :: (b :: bs).map fun d => .ch (if d then '1' else '0')) = .ok (b :: bs)) ∧
  (∀ cs : List Char, (∀ c ∈ cs, c.toNat ≤ 255) →
    operandBits [.text cs] = .ok (cs.flatMap fun c => bitsN 8 c.toNat)) ∧
  (∀ cs : List Char, (∃ c ∈ cs, 255 < c.toNat) → operandBits [.text cs] = .error .characterOutsideByte) ∧
  operandBits [.ch openBrace, .ch closeBrace] = .ok [] ∧
  (∀ (ps qs : List Piece) (a b : Bits), operandBits ps = .ok a → operandBits qs = .ok b →
    operandBits (ps ++ .ch concatSign :: qs) = .ok (a ++ b) ∧
    (.ch '|' ∉ ps → operandBits (ps ++ .ch '|' :: .ch '|' :: qs) = .ok (a ++ b)))

open Sys2Proof.Machine.Assembler in
/-- 30_encoding.md R91: the order of the operands in the text does not matter. -/
def Obligations.OperandOrderDoesNotMatter : Prop :=
  ∀ (cmd : Byte) (its its' : List (List Piece)) (i : Instr),
    commandOfWritten cmd its = .ok i → its.Perm its' → commandOfWritten cmd its' = .ok i

open Sys2Proof.Machine.Assembler in
/-- 30_encoding.md R91, R93, R80, R82: a line with a mnemonic and operands, in any order, assembles to the command of
the mnemonic's byte with the operands as written and those not written empty; a line with `.cmd` to the command of the
byte it writes; and the packet of any line's command decodes to that command. (The spaces of such a line, and that
`.cmd` takes any literal of eight bits, assigned bytes too, are the model's choice, notes/assumptions/15.md.) -/
def Obligations.AssembledLineDecodes : Prop :=
  (∀ (line : List Char) (i : Instr), assemble line = .ok (some i) → decode (encode i) = .ok (i, [])) ∧
  ∀ (k v d : Option (List Piece)) (kb vb db : Bits) (its : List (List Piece)),
    WrittenAs ['k', 'e', 'y'] k kb → WrittenAs ['i', 'v'] v vb → WrittenAs ['d', 'a', 't', 'a'] d db →
    its.Perm (k.toList ++ v.toList ++ d.toList) →
    (∀ m cmd, (m, cmd) ∈ mnemonics → assemble (lineOf m its) = .ok (some (commandOf cmd kb vb db))) ∧
    (∀ (byte : List Piece) (cmd : Byte), (∀ p ∈ byte, PlainPiece p) → operandBits byte = .ok (toBits cmd) →
      assemble (lineOf ['.', 'c', 'm', 'd'] (byte :: its)) = .ok (some (commandOf cmd kb vb db)))

/-! ### Reset, the handshake and the step -/

/-- 70_reset_and_hazards.md R260, R262: after reset the core is in IDLE and ready, offers no response and holds no
packet byte. (The registers' values there are the model's choice, notes/assumptions/1.md, and are not stated.) -/
def Obligations.ResetLeavesCoreReady : Prop :=
  State.reset.phase = .idle ∧ reqReady State.reset = true ∧ rspValid State.reset = false ∧ State.reset.rx = []

/-- 70_reset_and_hazards.md R261 (and R260): reset asserted in any phase ends the command in progress with no
response, discards the bytes of any partly received packet and leaves the core ready. -/
def Obligations.ResetCutsOffCommand : Prop :=
  ∀ (s : State) (h : List HostMove), s.host = .reset :: h →
    ∃ t, step s = .next t ∧ t.taken = s.taken ∧ t.phase = .idle ∧ reqReady t = true ∧ rspValid t = false ∧
      t.rx = [] ∧ t.host = h ∧ t.params = s.params ∧ t.grain = s.grain

/-- 30_encoding.md R87, 42_block_transform.md R180, R182: where a complete packet is at the head of the bytes
received in IDLE, the step runs the decoded command from the state without the packet's bytes. The bytes that come
with the host's `send` move count among them. -/
def Obligations.StepRunsDecodedCommand : Prop :=
  ∀ (s : State) (i : Instr) (rest bs : List Byte) (h : List HostMove), s.phase = .idle → s.grain = .command →
    (s.host = [] → decode s.rx = .ok (i, rest) → step s = exec i { s with rx := rest }) ∧
    (s.host = .wait :: h → decode s.rx = .ok (i, rest) → step s = exec i { s with rx := rest, host := h }) ∧
    (s.host = .take :: h → decode s.rx = .ok (i, rest) → step s = exec i { s with rx := rest }) ∧
    (s.host = .send bs :: h → decode (s.rx ++ bs) = .ok (i, rest) →
      step s = exec i { s with rx := rest, host := h })

/-- 42_block_transform.md R180, 30_encoding.md R88: taking the response on offer gives the host its packet (STATUS,
DIAG, the big-endian OUT_LEN and OUT) and moves the core to IDLE, and nothing else changes. Of the four bytes of
OUT_LEN nothing is said where OUT has 2^32 bits or more (notes/assumptions/18.md). -/
def Obligations.TakeGivesResponsePacket : Prop :=
  ∀ (s : State) (h : List HostMove), s.phase = .respond → s.host = .take :: h →
    ∃ outLen : List Byte, outLen.length = 4 ∧
      (s.outbuf.length < 2 ^ 32 → outLen = [BitVec.ofNat 8 (s.outbuf.length / 2 ^ 24),
        BitVec.ofNat 8 (s.outbuf.length / 2 ^ 16), BitVec.ofNat 8 (s.outbuf.length / 2 ^ 8),
        BitVec.ofNat 8 s.outbuf.length]) ∧
      step s = .next { s with
        phase := .idle
        host := h
        taken := s.taken ++ [s.status :: s.diag :: (outLen ++ packBits s.outbuf)] }

/-- 60_exceptions.md R245, 42_block_transform.md R181 (row RESPOND, otherwise): with no host move the response is held,
and a packet the host would send in RESPOND is not accepted. (That such a send stays first in the host's list, and that
a wait is consumed, is the model's choice, notes/assumptions/4.md; R245 gives the host no such moves.) -/
def Obligations.ResponseHeldUntilTaken : Prop :=
  ∀ (s : State) (bs : List Byte) (h : List HostMove), s.phase = .respond →
    (s.host = [] → step s = .next s) ∧
    (s.host = .wait :: h → step s = .next { s with host := h }) ∧
    (s.host = .send bs :: h → step s = .next s)

/-- 42_block_transform.md R180, 70_reset_and_hazards.md R269: there is no accept step while PHASE is not IDLE, so a
command offered then is turned away with none of its effect. -/
def Obligations.BusyCoreAcceptsNothing : Prop := ∀ (i : Instr) (s : State), s.phase ≠ .idle → exec i s = .next s

/-- 70_reset_and_hazards.md R270 and R266: from accept on, the latched command and operands stay as they are until
the core is idle again, whatever the host does short of reset; KEYREG, IVREG and NBLK stay after DECODE. -/
def Obligations.OperandsStayLatched : Prop :=
  ∀ (s t : State), s.phase ≠ .idle → s.host.head? ≠ some .reset → step s = .next t →
    t.cmdreg = s.cmdreg ∧ t.keyop = s.keyop ∧ t.ivop = s.ivop ∧ t.dataop = s.dataop ∧ t.rx = s.rx ∧
    (s.phase ≠ .decode → t.keyreg = s.keyreg ∧ t.ivreg = s.ivreg ∧ t.nblk = s.nblk)

/-- 10_state.md R27: in a step of one transition, subkey entry n changes only in key-schedule round n. -/
def Obligations.SubkeyWrittenOnlyInItsRound : Prop :=
  ∀ (s t : State) (m : Nat) (hm : m < 16), s.phase ≠ .idle → s.host.head? ≠ some .reset → step s = .next t →
    t.ks[m] ≠ s.ks[m] → s.phase = .ksRound ∧ s.rnd.toNat = m + 1

/-- 20_memory.md R59: the host sees nothing of a command but its whole response: a step adds at most the packet of
the response on offer to what the host has taken. The parameters and the grain never change (00_scope.md R9). -/
def Obligations.HostSeesOnlyWholeResponses : Prop :=
  ∀ (s t : State), step s = .next t →
    t.params = s.params ∧ t.grain = s.grain ∧
    (t.taken = s.taken ∨
      (rspValid s = true ∧ t.taken = s.taken ++ [s.response.packet] ∧ reqReady t = true))

/-! ### The sequencer, one transition at a time -/

/-- 42_block_transform.md R181: in every phase, the next phase is the one the transition table gives. -/
def Obligations.TransitionTable : Prop :=
  ∀ (s : State), Inv s → s.host = [] → s.grain = .phase → ∃ t, step s = .next t ∧ t.phase = nextPhase s

/-- 42_block_transform.md R180: the accept transition latches the command byte and the three operands and nothing
else but PHASE and the bytes consumed. -/
def Obligations.AcceptLatchesCommand : Prop :=
  ∀ (s : State) (i : Instr) (rest : List Byte), s.phase = .idle → s.grain = .phase → s.host = [] →
    decode s.rx = .ok (i, rest) →
    step s = .next { s with
      cmdreg := i.cmdByte
      keyop := i.key
      ivop := i.iv
      dataop := i.data
      rx := rest
      phase := .decode }

/-- 42_block_transform.md R180 with 43_mode_controller.md R200, R201, R203, R205: what DECODE writes when every check
passes. The IV and CHAIN are written for ENCRYPT_CBC only. -/
def Obligations.DecodeWritesWorkingRegisters : Prop :=
  ∀ (s : State), s.phase = .decode → s.host = [] →
    firstError s.params s.cmdreg s.keyop s.ivop s.dataop = none →
    ∃ t, step s = .next t ∧ t.phase = .ksPc1 ∧ t.outbuf = [] ∧ toBits t.keyreg = s.keyop.take 64 ∧
      (s.cmdreg = 0x01#8 → t = { s with phase := .ksPc1, outbuf := [], keyreg := t.keyreg, nblk := 0 }) ∧
      (s.cmdreg = 0x02#8 → t = { s with phase := .ksPc1, outbuf := [], keyreg := t.keyreg, nblk := 1, blk := 0 }) ∧
      (s.cmdreg = 0x03#8 → t = { s with
        phase := .ksPc1, outbuf := [], keyreg := t.keyreg, nblk := blockCount s.params s.dataop, blk := 0 }) ∧
      (s.cmdreg = 0x04#8 → toBits t.ivreg = s.ivop.take 64 ∧ t = { s with
        phase := .ksPc1, outbuf := [], keyreg := t.keyreg, ivreg := t.ivreg, chain := t.ivreg
        nblk := blockCount s.params s.dataop, blk := 0 })

/-- 60_exceptions.md R235 (with R231 to R234): a command reports the first check that fails, in the order command
byte, KEY length, IV length, DATA length, DATA capacity; DECODE then writes STATUS, DIAG and the empty OUTBUF. -/
def Obligations.DecodeRaisesFirstFailingCheck : Prop :=
  ∀ (s : State), s.phase = .decode → s.host = [] →
    let raised (status diag : Byte) : State := { s with status := status, diag := diag, outbuf := [], phase := .respond }
    let c := s.cmdreg
    let badByte := c ∉ [0x01#8, 0x02#8, 0x03#8, 0x04#8]
    let badKey := ((c = 0x01#8 ∨ c = 0x02#8) ∧ s.keyop.length ≠ 64) ∨ ((c = 0x03#8 ∨ c = 0x04#8) ∧ s.keyop.length < 64)
    let badIv := c = 0x04#8 ∧ s.ivop.length < 64
    let badData := c = 0x02#8 ∧ s.dataop.length ≠ 64
    let tooLong := (c = 0x03#8 ∨ c = 0x04#8) ∧ s.params.maxDataBits < s.dataop.length
    (badByte → step s = .next (raised 2#8 0#8)) ∧
    (badKey → step s = .next (raised 1#8 1#8)) ∧
    (¬ badKey → badIv → step s = .next (raised 1#8 2#8)) ∧
    (¬ badKey → badData → step s = .next (raised 1#8 3#8)) ∧
    (¬ badKey → ¬ badIv → tooLong → step s = .next (raised 3#8 3#8)) ∧
    (¬ badByte → ¬ badKey → ¬ badIv → ¬ badData → ¬ tooLong → ∃ t, step s = .next t ∧ t.phase = .ksPc1)

/-- 40_key_schedule.md R110: step KS_PC1 puts key bits PC1[1..28] into C and PC1[29..56] into D and sets RND to 1,
and nothing else. -/
def Obligations.KeyPermutationSelectsKeyBits : Prop :=
  ∀ (s : State), s.phase = .ksPc1 → s.host = [] →
    ∃ t, step s = .next t ∧
      (∀ j, j < 28 → (tablePC1[j]?).map (fun e => s.keyreg.getMsbD (e - 1)) = some (t.c.getMsbD j) ∧
        (tablePC1[28 + j]?).map (fun e => s.keyreg.getMsbD (e - 1)) = some (t.d.getMsbD j)) ∧
      t = { s with c := t.c, d := t.d, rnd := 1#5, phase := .ksRound }

/-- 40_key_schedule.md R112, R113, R116: step KS_ROUND rotates C and D by SHIFTS[n], writes PERM(PC2, Cn ‖ Dn) into
KS[n] and no other entry, and goes on as R116 says; nothing else changes. -/
def Obligations.KeyRoundRotatesAndStores : Prop :=
  ∀ (s : State), s.phase = .ksRound → s.host = [] → 1 ≤ s.rnd.toNat → s.rnd.toNat ≤ 16 →
    ∃ t k, tableShifts[s.rnd.toNat - 1]? = some k ∧ step s = .next t ∧
      toBits t.c = (toBits s.c).drop k ++ (toBits s.c).take k ∧
      toBits t.d = (toBits s.d).drop k ++ (toBits s.d).take k ∧
      (∀ m (hm : m < 16), m + 1 ≠ s.rnd.toNat → t.ks[m] = s.ks[m]) ∧
      (∀ m (hm : m < 16), m + 1 = s.rnd.toNat → ∀ j, j < 48 →
        (tablePC2[j]?).map (fun e => (t.c ++ t.d).getMsbD (e - 1)) = some (t.ks[m].getMsbD j)) ∧
      (s.rnd.toNat < 16 → t = { s with c := t.c, d := t.d, ks := t.ks, rnd := s.rnd + 1#5, phase := .ksRound }) ∧
      (s.rnd.toNat = 16 → s.cmdreg = 0x01#8 → t = { s with
        c := t.c, d := t.d, ks := t.ks, outbuf := t.ks.toList.flatMap toBits, status := 0#8, diag := 0#8
        phase := .respond }) ∧
      (s.rnd.toNat = 16 → s.cmdreg ≠ 0x01#8 → s.nblk = 0 → t = { s with
        c := t.c, d := t.d, ks := t.ks, outbuf := [], status := 0#8, diag := 0#8, phase := .respond }) ∧
      (s.rnd.toNat = 16 → s.cmdreg ≠ 0x01#8 → s.nblk ≠ 0 → t = { s with
        c := t.c, d := t.d, ks := t.ks, phase := .blkLoad })

/-- 43_mode_controller.md R204: BLK_LOAD puts block BLK of the data into BLKIN, XORed with CHAIN for ENCRYPT_CBC
only, and nothing else. The block's bits are the data's bits 64*BLK+1 .. 64*BLK+64, zero past the end (R202). -/
def Obligations.BlockLoadPadsAndChains : Prop :=
  ∀ (s : State), s.phase = .blkLoad → s.host = [] → s.blk < s.nblk →
    ∃ t, step s = .next t ∧ t = { s with blkin := t.blkin, phase := .ip } ∧
      ∀ j, j < 64 → t.blkin.getMsbD j =
        (((s.dataop[64 * s.blk + j]?).getD false) ^^ (decide (s.cmdreg = 0x04#8) && s.chain.getMsbD j))

/-- 42_block_transform.md R172, R174, R175: the steps IP, SWAP and FP on the bits of BLKIN, L and R, and PREOUT. -/
def Obligations.BlockPermutationSteps : Prop :=
  ∀ (s : State), s.host = [] →
    (s.phase = .ip → ∃ t, step s = .next t ∧ t = { s with l := t.l, r := t.r, rnd := 1#5, phase := .round } ∧
      ∀ j, j < 64 → (tableIP[j]?).map (fun e => s.blkin.getMsbD (e - 1)) = some ((t.l ++ t.r).getMsbD j)) ∧
    (s.phase = .swap → step s = .next { s with preout := s.r ++ s.l, phase := .fp }) ∧
    (s.phase = .fp → ∃ t, step s = .next t ∧ t = { s with blkout := t.blkout, phase := .blkStore } ∧
      ∀ j, j < 64 → (tableFP[j]?).map (fun e => s.preout.getMsbD (e - 1)) = some (t.blkout.getMsbD j))

/-- 42_block_transform.md R173 and 70_reset_and_hazards.md R265: in Feistel round n the new L is the old R and the new
R is the old L XOR f(old R, KS[n]); RND counts on below 16 and SWAP follows at 16. -/
def Obligations.FeistelRoundUsesOldHalves : Prop :=
  ∀ (s : State) (n : Nat) (hn : n < 16), s.phase = .round → s.host = [] → s.rnd.toNat = n + 1 →
    (n + 1 < 16 → step s = .next { s with
      l := s.r, r := s.l ^^^ roundF s.r s.ks[n], rnd := s.rnd + 1#5, phase := .round }) ∧
    (n + 1 = 16 → step s = .next { s with l := s.r, r := s.l ^^^ roundF s.r s.ks[n], phase := .swap })

/-- 43_mode_controller.md R206: BLK_STORE appends BLKOUT, chains it for ENCRYPT_CBC only, and goes to the next block
or ends the command with STATUS OK. -/
def Obligations.BlockStoreAppendsAndChains : Prop :=
  ∀ (s : State), s.phase = .blkStore → s.host = [] →
    let chain' := if s.cmdreg = 0x04#8 then s.blkout else s.chain
    (s.blk + 1 < s.nblk → step s = .next { s with
      outbuf := s.outbuf ++ toBits s.blkout, chain := chain', blk := s.blk + 1, phase := .blkLoad }) ∧
    (s.nblk ≤ s.blk + 1 → step s = .next { s with
      outbuf := s.outbuf ++ toBits s.blkout, chain := chain', status := 0#8, diag := 0#8, phase := .respond })

/-! ### Tables, the key schedule and the round function -/

/-- 20_memory.md R50, R51: every address of a table space reads a legal entry, no address outside it reads anything,
and ROM_SBOX is addressed as 64*i + 16*row + col. -/
def Obligations.TableSpacesReadAsMapped : Prop :=
  (∀ (sp : Space) (a : Nat), (sp.first ≤ a ∧ a < sp.first + sp.entries →
      ∃ v, memRead sp a = some v ∧ sp.legal v.toNat = true) ∧
    (¬ (sp.first ≤ a ∧ a < sp.first + sp.entries) → memRead sp a = none)) ∧
  (∀ i row col : Nat, i < 8 → row < 4 → col < 16 →
    (memRead .sbox (64 * i + 16 * row + col)).map BitVec.toNat = some (sboxAt i row col))

/-- 40_key_schedule.md R118: after round 16, C = C0 and D = D0. -/
def Obligations.RotationsReturnHalves : Prop :=
  ∀ (k : Block), halvesAfter k 16 = halvesAfter k 0 ∧
    ∀ c : HalfKey, tableShifts.foldl (fun c k => rol k c) c = c

/-- 40_key_schedule.md R117: the key's parity bits change neither a subkey nor any command's response; no parity is
checked. The key may be longer than 64 bits where the command allows it. -/
def Obligations.ParityBitsDoNotMatter : Prop :=
  ∀ (k k' : Block), SameButParity k k' →
    keySchedule k = keySchedule k' ∧
    ∀ (s : State) (x iv data : Bits) (mk : Bits → Bits → Bits → Instr),
      (mk = .deriveKeys ∨ mk = .encryptBlock ∨ mk = .encryptEcb ∨ mk = .encryptCbc) → s.phase = .idle →
      ∃ t t', exec (mk (toBits k ++ x) iv data) s = .next t ∧ exec (mk (toBits k' ++ x) iv data) s = .next t' ∧
        t.phase = .respond ∧ t'.phase = .respond ∧ t.response = t'.response

/-- 40_key_schedule.md R119: a key whose C0 and D0 are zero is accepted and has sixteen equal zero subkeys. -/
def Obligations.ZeroHalvesGiveEqualSubkeys : Prop :=
  ∀ (k : Block) (iv data : Bits) (s : State), keyC0 k = 0#28 → keyD0 k = 0#28 → s.phase = .idle →
    ∃ t, exec (.deriveKeys (toBits k) iv data) s = .next t ∧ Answers t (List.replicate 768 false)

/-- 41_round_function.md R141: row g of E is the bits R{4g-4} .. R{4g+1}, cyclically. -/
def Obligations.ExpansionRowsOverlap : Prop :=
  ∀ (r : HalfBlock) (g j : Nat), g < 8 → j < 6 → (expand r).getMsbD (6 * g + j) = r.getMsbD ((4 * g + 31 + j) % 32)

/-- 41_round_function.md R144, R145: the substitution takes output group i from S-box i at the row of the outer bits
and the column of the middle bits of input group i, most significant bit first. -/
def Obligations.SubstitutionLooksUpGroups : Prop :=
  ∀ (x : BitVec 48) (i j : Nat), i < 8 → j < 4 →
    (substitute x).getMsbD (4 * i + j) =
      (sboxAt i (2 * (x.getMsbD (6 * i)).toNat + (x.getMsbD (6 * i + 5)).toNat)
        (8 * (x.getMsbD (6 * i + 1)).toNat + 4 * (x.getMsbD (6 * i + 2)).toNat + 2 * (x.getMsbD (6 * i + 3)).toNat +
          (x.getMsbD (6 * i + 4)).toNat)).testBit (3 - j)

/-- 41_round_function.md R142, R147, R148: bit j of f(R, K) is bit P[j] of S(E(R) XOR K); and (corner case)
complementing both operands of f leaves its value. -/
def Obligations.RoundFunctionComplement : Prop :=
  ∀ (r : HalfBlock) (k : Subkey),
    (∀ j, j < 32 → (tableP[j]?).map (fun e => (substitute (expand r ^^^ k)).getMsbD (e - 1)) =
      some ((roundF r k).getMsbD j)) ∧
    roundF (~~~r) (~~~k) = roundF r k

/-- 42_block_transform.md R178: FP and IP undo each other on every block. -/
def Obligations.FinalPermutationInvertsInitial : Prop :=
  ∀ (x : Block), perm 64 tableFP (perm 64 tableIP x) = x ∧ perm 64 tableIP (perm 64 tableFP x) = x

/-! ### The commands -/

/-- 40_key_schedule.md R115, R114: DERIVE_KEYS with a 64-bit key completes with the sixteen subkeys of the key, K1
first; which registers it writes, and that it writes no other. -/
def Obligations.DeriveKeysReturnsSchedule : Prop :=
  ∀ (k : Block) (iv data : Bits) (s : State), s.phase = .idle →
    ∃ t, exec (.deriveKeys (toBits k) iv data) s = .next t ∧
      Answers t ((keySchedule k).flatMap toBits) ∧ t.outbuf.length = 768 ∧
      Latched 0x01#8 (toBits k) iv data t ∧ t.keyreg = k ∧ t.c = keyC0 k ∧ t.d = keyD0 k ∧
      t.ks.toList = keySchedule k ∧ t.rnd = 16#5 ∧ t.nblk = 0 ∧
      t.ivreg = s.ivreg ∧ t.blk = s.blk ∧ t.blkin = s.blkin ∧ t.l = s.l ∧ t.r = s.r ∧ t.preout = s.preout ∧
      t.blkout = s.blkout ∧ t.chain = s.chain ∧ HostSideKept s t

/-- 42_block_transform.md R177, R176: ENCRYPT_BLOCK with a 64-bit key and a 64-bit block completes with
DES_ENC(DATA, KeySchedule(KEY)); which registers it writes, and that it writes no other. -/
def Obligations.EncryptBlockReturnsCiphertext : Prop :=
  ∀ (k p : Block) (iv : Bits) (s : State), s.phase = .idle →
    ∃ t, exec (.encryptBlock (toBits k) iv (toBits p)) s = .next t ∧
      Answers t (toBits (desEnc p (keySchedule k))) ∧ t.outbuf.length = 64 ∧
      Latched 0x02#8 (toBits k) iv (toBits p) t ∧ t.keyreg = k ∧ t.c = keyC0 k ∧ t.d = keyD0 k ∧
      t.ks.toList = keySchedule k ∧ t.rnd = 16#5 ∧ t.nblk = 1 ∧ t.blk = 0 ∧ t.blkin = p ∧
      (t.l, t.r) = rounds (keySchedule k) (initialHalves p) ∧ t.preout = t.r ++ t.l ∧
      t.blkout = desEnc p (keySchedule k) ∧ t.ivreg = s.ivreg ∧ t.chain = s.chain ∧ HostSideKept s t

/-- 43_mode_controller.md R209, R200: ENCRYPT_ECB with a key of at least 64 bits and data within the capacity
completes with one ciphertext block for each data block, key bits past the 64th without effect; which registers it
writes, and that it writes no other. With no block (empty data where EMPTY_DATA_BLOCKS = 0) OUT is empty and no block
register changes (40_key_schedule.md R116). The number of blocks is R202's: ceil(|DATA|/64), and EMPTY_DATA_BLOCKS for
empty data, whose one block, if any, is the zero block. -/
def Obligations.EncryptEcbReturnsBlocks : Prop :=
  ∀ (k : Block) (x iv data : Bits) (s : State), s.phase = .idle → data.length ≤ s.params.maxDataBits →
    let n := blockCount s.params data
    (data = [] → n = s.params.emptyDataBlocks.val) ∧ (data ≠ [] → n = (data.length + 63) / 64) ∧
    ∃ t, exec (.encryptEcb (toBits k ++ x) iv data) s = .next t ∧
      (data = [] → n = 1 → t.outbuf = toBits (desEnc 0#64 (keySchedule k))) ∧
      Answers t ((List.range n).flatMap fun j => toBits (desEnc (blockAt data j) (keySchedule k))) ∧
      t.outbuf.length = 64 * n ∧
      Latched 0x03#8 (toBits k ++ x) iv data t ∧ t.keyreg = k ∧ t.c = keyC0 k ∧ t.d = keyD0 k ∧
      t.ks.toList = keySchedule k ∧ t.rnd = 16#5 ∧ t.nblk = n ∧ t.blk = n - 1 ∧
      (n = 0 → t.blkin = s.blkin ∧ t.l = s.l ∧ t.r = s.r ∧ t.preout = s.preout ∧ t.blkout = s.blkout) ∧
      (0 < n → t.blkin = blockAt data (n - 1) ∧ (t.l, t.r) = rounds (keySchedule k) (initialHalves t.blkin) ∧
        t.preout = t.r ++ t.l ∧ t.blkout = desEnc t.blkin (keySchedule k)) ∧
      t.ivreg = s.ivreg ∧ t.chain = s.chain ∧ HostSideKept s t

/-- 43_mode_controller.md R210, R200, R201, R205: ENCRYPT_CBC with a key and an IV of at least 64 bits and data within
the capacity completes with the chained ciphertext blocks; which registers it writes, and that it writes no other.
The number of blocks is R202's, as for ENCRYPT_ECB; the one block of empty data, if any, is the encryption of the IV. -/
def Obligations.EncryptCbcReturnsChainedBlocks : Prop :=
  ∀ (k v : Block) (x y data : Bits) (s : State), s.phase = .idle → data.length ≤ s.params.maxDataBits →
    let n := blockCount s.params data
    let plain := (List.range n).map (blockAt data)
    let K := keySchedule k
    (data = [] → n = s.params.emptyDataBlocks.val) ∧ (data ≠ [] → n = (data.length + 63) / 64) ∧
    ∃ t, exec (.encryptCbc (toBits k ++ x) (toBits v ++ y) data) s = .next t ∧
      (data = [] → n = 1 → t.outbuf = toBits (desEnc v K)) ∧
      Answers t ((cbcBlocks K v plain).flatMap toBits) ∧ t.outbuf.length = 64 * n ∧
      Latched 0x04#8 (toBits k ++ x) (toBits v ++ y) data t ∧ t.keyreg = k ∧ t.ivreg = v ∧ t.c = keyC0 k ∧
      t.d = keyD0 k ∧ t.ks.toList = K ∧ t.rnd = 16#5 ∧ t.nblk = n ∧ t.blk = n - 1 ∧
      t.chain = chainBefore K v plain n ∧
      (n = 0 → t.blkin = s.blkin ∧ t.l = s.l ∧ t.r = s.r ∧ t.preout = s.preout ∧ t.blkout = s.blkout) ∧
      (0 < n → t.blkin = blockAt data (n - 1) ^^^ chainBefore K v plain (n - 1) ∧
        (t.l, t.r) = rounds K (initialHalves t.blkin) ∧ t.preout = t.r ++ t.l ∧ t.blkout = desEnc t.blkin K) ∧
      HostSideKept s t

/-- 60_exceptions.md R231, R232, 30_encoding.md R83: a packet with an unassigned command byte completes with
ILLEGAL_COMMAND, DIAG 0 and no result, whatever its operands. -/
def Obligations.IllegalCommandAnswersError : Prop :=
  ∀ (cmd : Byte) (key iv data : Bits) (s : State), cmd ∉ [0x01#8, 0x02#8, 0x03#8, 0x04#8] → s.phase = .idle →
    exec (.illegal cmd key iv data) s = .next (erred cmd key iv data 2#8 0#8 s)

/-- 60_exceptions.md R233, R235: operands that break their length contract, command by command; nothing but the
operand latches and the error response is written (R236). -/
def Obligations.LengthContractViolations : Prop :=
  ∀ (key iv data : Bits) (s : State), s.phase = .idle →
    (key.length ≠ 64 →
      exec (.deriveKeys key iv data) s = .next (erred 0x01#8 key iv data 1#8 1#8 s) ∧
      exec (.encryptBlock key iv data) s = .next (erred 0x02#8 key iv data 1#8 1#8 s)) ∧
    (key.length = 64 → data.length ≠ 64 →
      exec (.encryptBlock key iv data) s = .next (erred 0x02#8 key iv data 1#8 3#8 s)) ∧
    (key.length < 64 →
      exec (.encryptEcb key iv data) s = .next (erred 0x03#8 key iv data 1#8 1#8 s) ∧
      exec (.encryptCbc key iv data) s = .next (erred 0x04#8 key iv data 1#8 1#8 s)) ∧
    (64 ≤ key.length → iv.length < 64 →
      exec (.encryptCbc key iv data) s = .next (erred 0x04#8 key iv data 1#8 2#8 s))

/-- 60_exceptions.md R234, R235: data longer than MAX_DATA_BITS, once the key (and the IV of ENCRYPT_CBC) has met its
contract; nothing but the operand latches and the error response is written (R236). -/
def Obligations.CapacityExceeded : Prop :=
  ∀ (key iv data : Bits) (s : State), s.phase = .idle → s.params.maxDataBits < data.length → 64 ≤ key.length →
    exec (.encryptEcb key iv data) s = .next (erred 0x03#8 key iv data 3#8 3#8 s) ∧
    (64 ≤ iv.length → exec (.encryptCbc key iv data) s = .next (erred 0x04#8 key iv data 3#8 3#8 s))

/-- 42_block_transform.md R182: every command offers exactly the response Exec(CMD, KEY, IV, DATA). -/
def Obligations.EveryCommandOffersExec : Prop :=
  ∀ (i : Instr) (s : State), i.wf = true → s.phase = .idle →
    ∃ t, exec i s = .next t ∧ t.phase = .respond ∧ t.response = responseOf s.params i ∧
      Latched i.cmdByte i.key i.iv i.data t ∧ HostSideKept s t

/-- 10_state.md R36, 20_memory.md R61: no response depends on a register value left by reset or by an earlier
command. (So the values State.reset gives the registers, notes/assumptions/1.md, reach no response.) -/
def Obligations.ResponseIndependentOfHistory : Prop :=
  ∀ (i : Instr) (s s' : State), s.phase = .idle → s'.phase = .idle → s.params = s'.params →
    ∃ t t', exec i s = .next t ∧ exec i s' = .next t' ∧ t.phase = .respond ∧ t'.phase = .respond ∧
      t.response = t'.response

/-- 42_block_transform.md R182, R181: at the grain of single transitions, the sequencer ends a command in the very
state that the one-step meaning gives, after the step count of 70_reset_and_hazards.md R271 less the take. -/
def Obligations.SequencerRefinesCommand : Prop :=
  ∀ (s : State) (i : Instr) (rest : List Byte), s.phase = .idle → s.grain = .phase → s.host = [] →
    decode s.rx = .ok (i, rest) →
    run (stepCount s.params i.cmdByte i.key i.iv i.data - 1) s = exec i { s with rx := rest }

/-- 20_memory.md R59, 70_reset_and_hazards.md R271: at the grain of single transitions, no response is on offer before
that number of steps, and the core is not ready either once it has accepted. -/
def Obligations.NoResponseBeforeStepCount : Prop :=
  ∀ (s : State) (i : Instr) (rest : List Byte) (m : Nat), s.phase = .idle → s.grain = .phase → s.host = [] →
    decode s.rx = .ok (i, rest) → 1 ≤ m → m < stepCount s.params i.cmdByte i.key i.iv i.data - 1 →
    ∃ t, run m s = .next t ∧ rspValid t = false ∧ reqReady t = false

/-- 70_reset_and_hazards.md R271: the number of core steps from accept to take, both counted, at the grain of single
transitions, with the host taking the response as soon as it is on offer. -/
def Obligations.StepsFromAcceptToTake : Prop :=
  ∀ (s : State) (i : Instr) (rest : List Byte), s.phase = .idle → s.grain = .phase → s.host = [.take] →
    decode s.rx = .ok (i, rest) →
    ∃ t, run (stepsToTake s.params i) s = .next t ∧ t.phase = .idle ∧ t.host = [] ∧ t.rx = rest ∧
      t.taken = s.taken ++ [(responseOf s.params i).packet]

/-- 20_memory.md R61, 60_exceptions.md R239: the host that sends commands and takes each response observes the
responses in command order, each equal to the pure result of its command, after errors too. (That a command takes two
steps, one for the send and the whole command and one for the take, is the model's choice, notes/assumptions/3.md and
4.md.) -/
def Obligations.HistoryIsSequential : Prop :=
  ∀ (cmds : List Instr) (s : State), (∀ i ∈ cmds, i.wf = true) → s.phase = .idle → s.grain = .command → s.rx = [] →
    s.host = script cmds →
    ∃ t, run (2 * cmds.length) s = .next t ∧ t.phase = .idle ∧ t.host = [] ∧ t.rx = [] ∧
      t.taken = s.taken ++ cmds.map fun i => (responseOf s.params i).packet

/-! ### Properties of the ciphers -/

/-- 42_block_transform.md R184: complementing key and data complements the ciphertext. -/
def Obligations.ComplementationProperty : Prop :=
  ∀ (k p : Block) (iv iv' : Bits) (s s' : State), s.phase = .idle → s'.phase = .idle →
    desEnc (~~~p) (keySchedule (~~~k)) = ~~~(desEnc p (keySchedule k)) ∧
    ∃ t t', exec (.encryptBlock (toBits k) iv (toBits p)) s = .next t ∧
      exec (.encryptBlock (toBits (~~~k)) iv' (toBits (~~~p))) s' = .next t' ∧
      t.status = 0#8 ∧ t'.status = 0#8 ∧ t'.outbuf = t.outbuf.map not

/-- 43_mode_controller.md R212: DES_ENC with a fixed schedule is a bijection on blocks, so a changed IV always changes
ciphertext block 0 of ENCRYPT_CBC, wherever there is one (empty data has one where EMPTY_DATA_BLOCKS = 1, R202). -/
def Obligations.ChangedIvChangesFirstBlock : Prop :=
  (∀ K : List Subkey, Function.Bijective fun p => desEnc p K) ∧
  ∀ (k v v' : Block) (x y y' data : Bits) (s : State), s.phase = .idle → 0 < blockCount s.params data →
    data.length ≤ s.params.maxDataBits → v ≠ v' →
    ∃ t t', exec (.encryptCbc (toBits k ++ x) (toBits v ++ y) data) s = .next t ∧
      exec (.encryptCbc (toBits k ++ x) (toBits v' ++ y') data) s = .next t' ∧
      t.status = 0#8 ∧ t'.status = 0#8 ∧ t.outbuf.take 64 ≠ t'.outbuf.take 64

/-- 43_mode_controller.md R211: ECB ciphertext block j depends on data block j alone; equal blocks give equal
ciphertext; and the ECB of d1 ‖ d2 is that of d1, then that of d2, where d1 is whole blocks. (Where d2 is empty and
EMPTY_DATA_BLOCKS = 1, R202 gives d2 alone a block of its own, so the last clause takes d2 not empty.) -/
def Obligations.EcbBlocksIndependent : Prop :=
  ∀ (p : Config.Params) (k : Block) (d : Bits),
    (∀ j, j < blockCount p d →
      ((ecb p k d).drop (64 * j)).take 64 = toBits (desEnc (blockAt d j) (keySchedule k))) ∧
    (∀ i j, i < blockCount p d → j < blockCount p d → blockAt d i = blockAt d j →
      ((ecb p k d).drop (64 * i)).take 64 = ((ecb p k d).drop (64 * j)).take 64) ∧
    (∀ d2 : Bits, d ≠ [] → 64 ∣ d.length → d2 ≠ [] → ecb p k (d ++ d2) = ecb p k d ++ ecb p k d2)

/-- 43_mode_controller.md R212: CBC ciphertext blocks 0..j are a function of the IV and plaintext blocks 0..j. -/
def Obligations.CbcBlocksDependOnEarlierBlocks : Prop :=
  ∀ (p : Config.Params) (k v : Block) (d d' : Bits) (j : Nat), j < blockCount p d → j < blockCount p d' →
    (∀ i, i ≤ j → blockAt d i = blockAt d' i) →
    (cbc p k v d).take (64 * (j + 1)) = (cbc p k v d').take (64 * (j + 1))

/-- 43_mode_controller.md R213: with a zero IV, CBC block 0 is ECB block 0; and ENCRYPT_CBC of one full block is
ENCRYPT_BLOCK of the block XOR the IV. -/
def Obligations.CbcAgainstEcbAndBlock : Prop :=
  (∀ (p : Config.Params) (k : Block) (d : Bits), (cbc p k 0#64 d).take 64 = (ecb p k d).take 64) ∧
  ∀ (k v p : Block) (iv : Bits) (s s' : State), s.phase = .idle → s'.phase = .idle → 64 ≤ s.params.maxDataBits →
    ∃ t t', exec (.encryptCbc (toBits k) (toBits v) (toBits p)) s = .next t ∧
      exec (.encryptBlock (toBits k) iv (toBits (p ^^^ v))) s' = .next t' ∧
      t.status = 0#8 ∧ t'.status = 0#8 ∧ t.outbuf = t'.outbuf

/-- 43_mode_controller.md R207, R202: zero bits appended inside the last block change no ciphertext, for empty data
too where that has a block. -/
def Obligations.PaddingNotRecorded : Prop :=
  ∀ (p : Config.Params) (k v : Block) (d : Bits) (n : Nat),
    blockCount p (d ++ List.replicate n false) = blockCount p d →
    ecb p k (d ++ List.replicate n false) = ecb p k d ∧ cbc p k v (d ++ List.replicate n false) = cbc p k v d

/-- 20_memory.md R55, 43_mode_controller.md R208: byte m of a result of whole bytes is uint(OUT{8m+1..8m+8}), the
first bit of the group of weight 128. -/
def Obligations.ResultBytesMsbFirst : Prop :=
  ∀ (out : Bits) (m : Nat), 8 ∣ out.length → 8 * m < out.length →
    (byteValues out).length = out.length / 8 ∧ (byteValues out)[m]? = some (uint ((out.drop (8 * m)).take 8)) ∧
    ∃ b, (byteValues out)[m]? = some b ∧ b ≤ 255 ∧ (128 ≤ b ↔ out[8 * m]? = some true)

/-! ### Invariants -/

/-- The invariant holds right after reset (70_reset_and_hazards.md R260). -/
def Obligations.InvariantAtReset : Prop := Inv State.reset

/-- Every step keeps the invariant of Safety.lean: RND is 1..16 where it is used (10_state.md R25), the subkeys are
those of the key before any block (70_reset_and_hazards.md R266), OUTBUF and CHAIN hold what R204 and R206 say, and
the response on offer is Exec of the latched command (42_block_transform.md R182). -/
def Obligations.StepKeepsInvariant : Prop := ∀ (s t : State), Inv s → step s = .next t → Inv t

/-- 60_exceptions.md R236, 10_state.md R36: from a state that meets the invariant no step faults or is refused, for
ever: every phase after DECODE is total. -/
def Obligations.InvariantRunsSafely : Prop := ∀ (s : State), Inv s → RunsSafely s

/-- 10_state.md R33, 30_encoding.md R88, R89: the response on offer has one of the assigned STATUS and DIAG codes, a
whole number of bytes of result, and no result where STATUS is not OK. -/
def Obligations.ResponseCodesAndLengths : Prop :=
  ∀ (s : State), Inv s → rspValid s = true →
    ((s.status = 0#8 ∧ s.diag = 0#8) ∨
      (s.status = 1#8 ∧ (s.diag = 1#8 ∨ s.diag = 2#8 ∨ s.diag = 3#8)) ∨
      (s.status = 2#8 ∧ s.diag = 0#8) ∨ (s.status = 3#8 ∧ s.diag = 3#8)) ∧
    8 ∣ s.outbuf.length ∧ (s.status ≠ 0#8 → s.outbuf = []) ∧
    (s.status = 0#8 →
      (s.cmdreg = 0x01#8 → s.outbuf.length = 768) ∧ (s.cmdreg = 0x02#8 → s.outbuf.length = 64) ∧
      (s.cmdreg = 0x03#8 ∨ s.cmdreg = 0x04#8 → s.outbuf.length = 64 * blockCount s.params s.dataop))
end

