-- ==== Sys2Proof/Laws/Assembler.lean ====
section
/-! SUPPORT. The reading of a line of text: what each function of the assembler does with a part it can take whole. -/

namespace Sys2Proof.Machine.Assembler

/-- A character that opens no text literal and no comment is a piece of its own. -/
theorem pieces_ch {c : Char} (hs : c ≠ ';') (hq : c ≠ quote) (u : List Char) :
    pieces (c :: u) none = (pieces u none).map (.ch c :: ·) := by rw [pieces, if_neg hs, if_neg hq]

/-- The rest of a text literal up to its quotation mark, after the characters `t` already read. -/
theorem pieces_text {cs : List Char} (hq : quote ∉ cs) (u t : List Char) :
    pieces (cs ++ quote :: u) (some t) = (pieces u none).map (.text (t.reverse ++ cs) :: ·) := by
  induction cs generalizing t with
  | nil => simp [pieces]
  | cons c cs ih =>
    rw [List.mem_cons, not_or] at hq
    rw [List.cons_append, pieces, if_neg (Ne.symm hq.1), ih hq.2]
    simp

/-- A text literal is one piece. -/
theorem pieces_quoted {cs : List Char} (hq : quote ∉ cs) (u : List Char) :
    pieces (quote :: (cs ++ quote :: u)) none = (pieces u none).map (.text cs :: ·) := by
  rw [pieces, if_neg (by decide), if_pos rfl, pieces_text hq]; rfl

/-- A sequence without the separator is one part. -/
theorem splitOn_of_not_mem {sep : Piece} {ps : List Piece} (h : sep ∉ ps) : splitOn sep ps = [ps] := by
  induction ps with
  | nil => rfl
  | cons p ps ih =>
    rw [List.mem_cons, not_or] at h
    rw [splitOn, if_neg (Ne.symm h.1), ih h.2]

/-- The first part ends at the first separator. -/
theorem splitOn_append_of_not_mem {sep : Piece} {ps : List Piece} (h : sep ∉ ps) (qs : List Piece) :
    splitOn sep (ps ++ sep :: qs) = ps :: splitOn sep qs := by
  induction ps with
  | nil => simp [splitOn]
  | cons p ps ih =>
    rw [List.mem_cons, not_or] at h
    rw [List.cons_append, splitOn, if_neg (Ne.symm h.1), ih h.2]

/-- `name=<operand>` is read as its name and its operand. -/
theorem nameAndOperand_word {name : List Char} (hn : '=' ∉ name) (ps : List Piece) :
    nameAndOperand (word name ++ .ch '=' :: ps) = (word name, ps) := by
  have hb : ∀ p ∈ word name, decide (p ≠ Piece.ch '=') = true := by
    intro p hp
    obtain ⟨c, hc, rfl⟩ := List.mem_map.1 hp
    simpa using fun h : c = '=' => hn (h ▸ hc)
  rw [nameAndOperand, List.takeWhile_append_of_pos hb, List.dropWhile_append_of_pos hb]
  simp

/-- The command of a line is well formed. -/
theorem commandOfWritten_wf {cmd : Byte} {its : List (List Piece)} {i : Instr} (h : commandOfWritten cmd its = .ok i) :
    i.wf = true := by
  unfold commandOfWritten at h
  split at h
  · cases h
  · split at h
    · cases h; assumption
    · cases h

end Sys2Proof.Machine.Assembler
end

