-- ==== Sys2Proof/Laws/Bits.lean ====
section
/-! SUPPORT. Bit sequences, numbers and bytes: what `ofBits`, `toBits`, `seg`, `perm`, `packBits` and `be32` do,
bit by bit. -/

namespace Sys2Proof.Machine

theorem uint_append (a b : Bits) : uint (a ++ b) = uint a * 2 ^ b.length + uint b := by
  induction b using List.reverseRecOn with
  | nil => simp [uint]
  | append_singleton b x ih =>
    rw [← List.append_assoc]
    simp only [uint, List.foldl_append, List.foldl_cons, List.foldl_nil, List.length_append,
      List.length_singleton] at ih ⊢
    rw [ih]
    ring

theorem uint_cons (x : Bool) (b : Bits) : uint (x :: b) = x.toNat * 2 ^ b.length + uint b := by
  have h := uint_append [x] b
  simpa [uint] using h

theorem uint_lt (b : Bits) : uint b < 2 ^ b.length := by
  induction b with
  | nil => simp [uint]
  | cons x b ih =>
    rw [uint_cons, List.length_cons, pow_succ]
    cases x <;> simp <;> omega

@[simp] theorem toBits_length {n : Nat} (v : BitVec n) : (toBits v).length = n := by simp [toBits]

theorem testBit_uint (b : Bits) (i : Nat) (h : i < b.length) :
    (uint b).testBit (b.length - 1 - i) = b[i] := by
  induction b generalizing i with
  | nil => simp at h
  | cons x b ih =>
    rw [uint_cons]
    cases i with
    | zero =>
      simp only [List.length_cons, Nat.add_sub_cancel, Nat.sub_zero, List.getElem_cons_zero]
      have := uint_lt b
      cases x
      · simp [Nat.testBit_lt_two_pow this]
      · rw [Bool.toNat_true, one_mul, Nat.testBit_two_pow_add_eq, Nat.testBit_lt_two_pow this]; rfl
    | succ i =>
      simp only [List.length_cons, List.getElem_cons_succ, Nat.add_sub_cancel] at h ⊢
      have hi : i < b.length := by omega
      rw [← ih i hi]
      have e : b.length - (i + 1) = b.length - 1 - i := by omega
      rw [e]
      cases x
      · simp
      · rw [Bool.toNat_true, one_mul, Nat.testBit_two_pow_add_gt (by omega)]

theorem getMsbD_ofBits {n : Nat} (b : Bits) (hb : b.length = n) (i : Nat) :
    (ofBits n b).getMsbD i = (b[i]?).getD false := by
  subst hb
  by_cases h : i < b.length
  · have := testBit_uint b i h
    simp only [ofBits, BitVec.getMsbD, BitVec.getLsbD_ofNat, h, decide_true, Bool.true_and,
      List.getElem?_eq_getElem h, Option.getD_some]
    rw [this]
    simp only [Bool.and_eq_right_iff_imp, decide_eq_true_eq]
    omega
  · simp [BitVec.getMsbD, h]

theorem toBits_ofBits {n : Nat} (b : Bits) (hb : b.length = n) : toBits (ofBits n b) = b := by
  apply List.ext_getElem
  · simp [hb]
  · intro i h1 h2
    simp [toBits, getMsbD_ofBits b hb, List.getElem?_eq_getElem h2]

theorem toBits_getElem? {n : Nat} (v : BitVec n) (i : Nat) : (toBits v)[i]?.getD false = v.getMsbD i := by
  by_cases h : i < n
  · simp [toBits, h]
  · simp [toBits, h, BitVec.getMsbD]

theorem ofBits_toBits {n : Nat} (v : BitVec n) : ofBits n (toBits v) = v := by
  apply BitVec.eq_of_getMsbD_eq
  intro i _
  rw [getMsbD_ofBits _ (toBits_length v), toBits_getElem?]

theorem toBits_inj {n : Nat} {v w : BitVec n} (h : toBits v = toBits w) : v = w := by
  rw [← ofBits_toBits v, h, ofBits_toBits]

theorem getMsbD_seg {w : Nat} (v : BitVec w) (a n i : Nat) (hw : a - 1 + n ≤ w) (hi : i < n) :
    (seg v a n).getMsbD i = v.getMsbD (a - 1 + i) := by
  have h1 : a - 1 + i < w := by omega
  have h2 : n - 1 - i < n := by omega
  simp only [seg, BitVec.getMsbD, BitVec.getLsbD_extractLsb', hi, h1, h2, decide_true, Bool.true_and]
  congr 1
  omega

/-- Bit j of `PERM(T, v)` is `v{T[j]}`. -/
theorem getMsbD_perm {m n : Nat} (T : List Nat) (v : BitVec m) (hT : T.length = n) (j : Nat) (h : j < T.length) :
    (perm n T v).getMsbD j = v.getMsbD (T[j] - 1) := by
  rw [perm, getMsbD_ofBits _ (by simp [hT])]
  simp [h]

theorem packGo_length (n : Nat) (b : Bits) : (packGo n b).length = n := by
  induction n generalizing b with
  | zero => rfl
  | succ n ih => simp [packGo, ih]

@[simp] theorem packBits_length (b : Bits) : (packBits b).length = nb b.length := packGo_length _ _

theorem unpackBits_length (bs : List Byte) : (unpackBits bs).length = 8 * bs.length := by
  induction bs with
  | nil => rfl
  | cons x bs ih =>
    simp only [unpackBits, List.flatMap_cons, List.length_append, toBits_length, List.length_cons] at ih ⊢
    omega

theorem zeropad_length (n : Nat) (b : Bits) (h : b.length ≤ n) : (zeropad n b).length = n := by
  simp [zeropad]; omega

theorem unpack_packGo (n : Nat) (b : Bits) (h : b.length ≤ 8 * n) :
    unpackBits (packGo n b) = b ++ List.replicate (8 * n - b.length) false := by
  induction n generalizing b with
  | zero =>
    have : b = [] := List.eq_nil_of_length_eq_zero (by omega)
    simp [packGo, unpackBits, this]
  | succ n ih =>
    have hlen : (zeropad 8 (b.take 8)).length = 8 := zeropad_length _ _ (by simp)
    have hd : (b.drop 8).length ≤ 8 * n := by simp; omega
    simp only [packGo, unpackBits, List.flatMap_cons] at ih ⊢
    rw [toBits_ofBits _ hlen, ih _ hd]
    by_cases h8 : 8 ≤ b.length
    · have ht : (b.take 8).length = 8 := by simp; omega
      simp only [zeropad, ht, Nat.sub_self, List.replicate_zero, List.append_nil]
      rw [← List.append_assoc, List.take_append_drop]
      congr 2
      simp; omega
    · have ht : b.take 8 = b := List.take_of_length_le (by omega)
      have hd0 : b.drop 8 = [] := List.drop_eq_nil_of_le (by omega)
      simp only [zeropad, ht, hd0, List.nil_append, List.length_nil, List.append_assoc,
        ← List.replicate_add]
      congr 2
      omega

/-- Packing and unpacking a sequence gives it back, with the pad bits dropped. -/
theorem take_unpack_pack (b : Bits) : (unpackBits (packBits b)).take b.length = b := by
  rw [packBits, unpack_packGo _ _ (by simp [nb]; omega)]
  simp

theorem be32_length (x : Nat) : (be32 x).length = 4 := rfl

/-- A length below 2^32 is what its four bytes hold. -/
theorem beNat_be32 (x : Nat) (h : x < 2 ^ 32) : beNat (be32 x) = x := by
  simp only [beNat, be32, List.foldl_cons, List.foldl_nil, BitVec.toNat_ofNat]
  omega

/-- `ROL_k` on the bit sequence: the first `k` bits move to the end. -/
theorem toBits_rol {n : Nat} (v : BitVec n) (k : Nat) (h : k < n) : toBits (rol k v) = (toBits v).drop k ++ (toBits v).take k := by
  apply List.ext_getElem?
  intro i
  by_cases hi : i < n
  · have : (rol k v).getMsbD i = v.getMsbD ((i + k) % n) := by
      rw [rol, BitVec.getMsbD_rotateLeft]; simp [hi, Nat.add_comm]
    by_cases hk : i < n - k
    · rw [List.getElem?_append_left (by simp; omega), List.getElem?_drop]
      simp only [toBits, List.getElem?_map, List.getElem?_range hi, List.getElem?_range (show k + i < n by omega), Option.map_some, this]
      rw [Nat.mod_eq_of_lt (by omega), Nat.add_comm]
    · rw [List.getElem?_append_right (by simp; omega)]
      simp only [List.length_drop, toBits_length]
      rw [List.getElem?_take_of_lt (by omega)]
      simp only [toBits, List.getElem?_map, List.getElem?_range hi, List.getElem?_range (show i - (n - k) < n by omega), Option.map_some, this]
      have : (i + k) % n = i - (n - k) := by
        rw [Nat.mod_eq_sub_mod (by omega), Nat.mod_eq_of_lt (by omega)]; omega
      rw [this]
  · rw [List.getElem?_eq_none (by simp; omega), List.getElem?_eq_none (by simp; omega)]

/-- Two rotations are one. -/
theorem rol_rol {n : Nat} (v : BitVec n) (j k : Nat) : rol k (rol j v) = rol (j + k) v := by
  apply BitVec.eq_of_getMsbD_eq
  intro i hi
  simp only [rol, BitVec.getMsbD_rotateLeft]
  have : (k + i) % n < n := Nat.mod_lt _ (by omega)
  simp [hi, this, Nat.add_assoc]

/-- The two halves of a block make the block. -/
theorem seg_append_32 (x : Block) : seg x 1 32 ++ seg x 33 32 = x := by
  apply BitVec.eq_of_getMsbD_eq
  intro i hi
  rw [BitVec.getMsbD_append]
  by_cases h : i < 32
  · have : ¬ 32 ≤ i := by omega
    simp only [this, if_false]
    rw [getMsbD_seg _ _ _ _ (by omega) h]; simp
  · have : 32 ≤ i := by omega
    simp [this]
    rw [getMsbD_seg _ _ _ _ (by omega) (by omega)]
    congr 1; omega

/-- A permutation commutes with complement. -/
theorem perm_not {m n : Nat} (T : List Nat) (hT : T.length = n) (hb : ∀ e ∈ T, e - 1 < m) (a : BitVec m) : perm n T (~~~a) = ~~~(perm n T a) := by
  apply BitVec.eq_of_getMsbD_eq
  intro i hi
  have := hb _ (List.getElem_mem (h := (by omega : i < T.length)))
  rw [BitVec.getMsbD_not, getMsbD_perm _ _ hT _ (by omega), getMsbD_perm _ _ hT _ (by omega), BitVec.getMsbD_not]
  simp [hi, this]

/-- A segment commutes with complement. -/
theorem seg_not {w : Nat} (v : BitVec w) (a n : Nat) (h : a - 1 + n ≤ w) : seg (~~~v) a n = ~~~(seg v a n) := by
  apply BitVec.eq_of_getMsbD_eq
  intro i hi
  rw [BitVec.getMsbD_not, getMsbD_seg _ _ _ _ h hi, getMsbD_seg _ _ _ _ h hi, BitVec.getMsbD_not]
  simp [hi]; intro; omega

/-- A rotation commutes with complement. -/
theorem rol_not {n : Nat} (k : Nat) (v : BitVec n) : rol k (~~~v) = ~~~(rol k v) := by
  apply BitVec.eq_of_getMsbD_eq
  intro i hi
  have : (k + i) % n < n := Nat.mod_lt _ (by omega)
  simp [rol, BitVec.getMsbD_rotateLeft, BitVec.getMsbD_not, hi, this]

/-- The bits of a complement. -/
theorem toBits_not {n : Nat} (v : BitVec n) : toBits (~~~v) = (toBits v).map not := by
  simp only [toBits, List.map_map]
  apply List.map_congr_left
  intro i hi
  simp only [List.mem_range] at hi
  simp [BitVec.getMsbD_not, hi]

/-- Bit `j` of a byte sequence is bit `7 - j % 8` of byte `j / 8`. -/
theorem unpack_getElem? (bs : List Byte) (j : Nat) : (unpackBits bs)[j]? = (bs[j / 8]?).map fun b => b.getLsbD (7 - j % 8) := by
  induction bs generalizing j with
  | nil => simp [unpackBits]
  | cons b bs ih =>
    simp only [unpackBits, List.flatMap_cons] at ih ⊢
    by_cases h : j < 8
    · rw [List.getElem?_append_left (by simpa using h)]
      have : j / 8 = 0 := by omega
      have h2 : j % 8 = j := by omega
      simp only [toBits, this, h2, List.getElem?_map, List.getElem?_range h, List.getElem?_cons_zero, Option.map_some]
      simp [BitVec.getMsbD, h]
    · rw [List.getElem?_append_right (by simp; omega)]
      obtain ⟨m, rfl⟩ : ∃ m, j = m + 8 := ⟨j - 8, by omega⟩
      simp only [toBits_length, Nat.add_sub_cancel]
      rw [ih]
      have : (m + 8) / 8 = m / 8 + 1 := by omega
      simp [this]

/-- Byte `m` of a packed sequence holds its bits `8m .. 8m + 7`. -/
theorem packGo_getElem? (n : Nat) (b : Bits) (m : Nat) (h : m < n) : (packGo n b)[m]? = some (ofBits 8 (zeropad 8 ((b.drop (8 * m)).take 8))) := by
  induction n generalizing b m with
  | zero => omega
  | succ n ih =>
    cases m with
    | zero => simp [packGo]
    | succ m => simp only [packGo, List.getElem?_cons_succ]; rw [ih _ _ (by omega), List.drop_drop, show 8 + 8 * m = 8 * (m + 1) by omega]

/-- The number a bit sequence stands for. -/
theorem ofBits_toNat {n : Nat} (b : Bits) (h : b.length = n) : (ofBits n b).toNat = uint b := by
  have := uint_lt b
  rw [h] at this; simp [ofBits, Nat.mod_eq_of_lt this]

end Sys2Proof.Machine
end

