-- ==== Sys2Proof/Laws/Packets.lean ====
section
/-! SUPPORT. The decoder on one operand field and on a packet's command byte. -/

namespace Sys2Proof

open Sys2Proof.Machine

/-- One operand field as raw bytes: a length of `len` bits and its bytes, pad bits of any value. -/
theorem readOperand_raw (len : Nat) (field rest : List Byte) (hl : len < 2 ^ 32) (hf : field.length = nb len) :
    readOperand (be32 len ++ (field ++ rest)) = some ((unpackBits field).take len, rest) := by
  have h4 : (be32 len ++ (field ++ rest)).take 4 = be32 len := List.take_left' (be32_length len)
  have d4 : (be32 len ++ (field ++ rest)).drop 4 = field ++ rest := List.drop_left' (be32_length len)
  simp only [readOperand, h4, d4, beNat_be32 len hl, List.take_left' hf, List.drop_left' hf, List.length_append,
    be32_length, hf]
  rw [if_neg (by omega), if_neg (by omega)]

theorem readOperand_encodeOperand (b : Bits) (rest : List Byte) (h : operandFits b) :
    readOperand (encodeOperand b ++ rest) = some (b, rest) := by
  rw [encodeOperand, List.append_assoc, readOperand_raw _ _ _ h (packBits_length b), take_unpack_pack]

/-- A field whose bytes run out is not read. -/
theorem readOperand_prefix {len : Nat} {bs more field : List Byte} (hl : len < 2 ^ 32) (hf : field.length = nb len) (hm : more ≠ [])
    (h : bs ++ more = be32 len ++ field) : readOperand bs = none := by
  have hn := congrArg List.length h
  simp only [List.length_append, be32_length, hf] at hn
  have hm' : 0 < more.length := List.length_pos_of_ne_nil hm
  unfold readOperand
  by_cases h4 : bs.length < 4
  · simp [h4]
  · have e : bs.take 4 = be32 len := by
      have := congrArg (List.take 4) h
      rwa [List.take_append_of_le_length (by omega), List.take_left' (be32_length len)] at this
    simp only [e, beNat_be32 len hl, List.length_drop]
    rw [if_neg h4, if_pos (by omega)]

/-- A prefix of a field and what follows it ends inside the field or has the whole field. -/
theorem readOperand_prefix_cases {len : Nat} {bs more field tail : List Byte} (hl : len < 2 ^ 32) (hf : field.length = nb len) (hm : more ≠ [])
    (h : bs ++ more = be32 len ++ field ++ tail) : readOperand bs = none ∨ ∃ bs', readOperand bs = some ((unpackBits field).take len, bs') ∧ bs' ++ more = tail := by
  by_cases hlen : bs.length < 4 + nb len
  · left
    have h4 : (be32 len ++ field).length = 4 + nb len := by simp [be32_length, hf]
    have := congrArg (List.take (4 + nb len)) h
    rw [List.take_left' h4, List.take_append, List.take_of_length_le (by omega)] at this
    refine readOperand_prefix hl hf ?_ this
    intro h0
    have h1 := congrArg List.length h0
    have hm' : 0 < more.length := List.length_pos_of_ne_nil hm
    rw [List.length_take, List.length_nil] at h1
    omega
  · right
    have h4 : (be32 len ++ field).length = 4 + nb len := by simp [be32_length, hf]
    have hb : bs = be32 len ++ (field ++ bs.drop (4 + nb len)) := by
      have := congrArg (List.take (4 + nb len)) h
      rw [List.take_left' h4, List.take_append_of_le_length (by omega)] at this
      rw [← List.append_assoc, ← this, List.take_append_drop]
    refine ⟨bs.drop (4 + nb len), ?_, ?_⟩
    · rw [hb, readOperand_raw _ _ _ hl hf]
      congr 2
      rw [← hb]
    · have := congrArg (List.drop (4 + nb len)) h
      rwa [List.drop_left' h4, List.drop_append_of_le_length (by omega)] at this

theorem opcodeOf_cases (c : Byte) :
    (c = 0x01#8 ∧ opcodeOf c = some .deriveKeys) ∨ (c = 0x02#8 ∧ opcodeOf c = some .encryptBlock) ∨
    (c = 0x03#8 ∧ opcodeOf c = some .encryptEcb) ∨ (c = 0x04#8 ∧ opcodeOf c = some .encryptCbc) ∨
    (c ∉ assignedBytes ∧ opcodeOf c = none) := by
  revert c; decide +kernel

theorem opcodeOf_eq_none (c : Byte) : opcodeOf c = none ↔ c ∉ assignedBytes := by
  revert c; decide +kernel

/-- The decoded command carries the byte and the operands of its packet. -/
theorem commandOf_fields (c : Byte) (k v d : Bits) :
    (commandOf c k v d).cmdByte = c ∧ (commandOf c k v d).key = k ∧ (commandOf c k v d).iv = v ∧
    (commandOf c k v d).data = d := by
  rcases opcodeOf_cases c with ⟨rfl, h⟩ | ⟨rfl, h⟩ | ⟨rfl, h⟩ | ⟨rfl, h⟩ | ⟨_, h⟩ <;>
    simp [commandOf, h, Instr.cmdByte, Instr.key, Instr.iv, Instr.data]

/-- A well-formed command is the one its own byte and operands decode to. -/
theorem commandOf_self (i : Instr) (h : i.wf = true) : commandOf i.cmdByte i.key i.iv i.data = i := by
  cases i with
  | illegal c k v d =>
    have hc : opcodeOf c = none := by
      rw [opcodeOf_eq_none]
      simp only [Instr.wf, Bool.and_eq_true, Bool.not_eq_true'] at h
      simpa using h.1.1.1
    simp [commandOf, Instr.cmdByte, Instr.key, Instr.iv, Instr.data, hc]
  | _ => rfl

theorem wf_fits (i : Instr) (h : i.wf = true) : operandFits i.key ∧ operandFits i.iv ∧ operandFits i.data := by
  cases i <;> simp_all [Instr.wf, Instr.key, Instr.iv, Instr.data]

/-- What the decoder answers is the command of a byte and three operands. -/
theorem decode_wf_commandOf {bs rest : List Byte} {i : Instr} (h : decode bs = .ok (i, rest)) : ∃ c k v d, i = commandOf c k v d := by
  unfold decode at h
  split at h
  · cases h
  · split at h
    · cases h
    · split at h
      · cases h
      · split at h
        · cases h
        · cases h; exact ⟨_, _, _, _, rfl⟩

end Sys2Proof
end

