-- ==== Sys2Proof/Laws/State.lean ====
section
/-! SUPPORT. What each shared operation on the state leaves in each field: one lemma per field. -/

namespace Sys2Proof.Machine

/-- OUT_LEN is four bytes, whatever the result. -/
@[simp] theorem outLenField_length (out : Bits) : (outLenField out).length = 4 := by
  unfold outLenField; split <;> rfl

/-- Where the result fits the field, OUT_LEN is its length (30_encoding.md R88). -/
theorem outLenField_of_lt {out : Bits} (h : out.length < 2 ^ 32) : outLenField out = be32 out.length := if_pos h

@[simp] theorem accept_params (cmd : Byte) (key iv data : Bits) (s : State) : (accept cmd key iv data s).params = s.params := rfl
@[simp] theorem accept_grain (cmd : Byte) (key iv data : Bits) (s : State) : (accept cmd key iv data s).grain = s.grain := rfl
@[simp] theorem accept_phase (cmd : Byte) (key iv data : Bits) (s : State) : (accept cmd key iv data s).phase = .decode := rfl
@[simp] theorem accept_cmdreg (cmd : Byte) (key iv data : Bits) (s : State) : (accept cmd key iv data s).cmdreg = cmd := rfl
@[simp] theorem accept_keyop (cmd : Byte) (key iv data : Bits) (s : State) : (accept cmd key iv data s).keyop = key := rfl
@[simp] theorem accept_ivop (cmd : Byte) (key iv data : Bits) (s : State) : (accept cmd key iv data s).ivop = iv := rfl
@[simp] theorem accept_dataop (cmd : Byte) (key iv data : Bits) (s : State) : (accept cmd key iv data s).dataop = data := rfl
@[simp] theorem accept_keyreg (cmd : Byte) (key iv data : Bits) (s : State) : (accept cmd key iv data s).keyreg = s.keyreg := rfl
@[simp] theorem accept_ivreg (cmd : Byte) (key iv data : Bits) (s : State) : (accept cmd key iv data s).ivreg = s.ivreg := rfl
@[simp] theorem accept_c (cmd : Byte) (key iv data : Bits) (s : State) : (accept cmd key iv data s).c = s.c := rfl
@[simp] theorem accept_d (cmd : Byte) (key iv data : Bits) (s : State) : (accept cmd key iv data s).d = s.d := rfl
@[simp] theorem accept_ks (cmd : Byte) (key iv data : Bits) (s : State) : (accept cmd key iv data s).ks = s.ks := rfl
@[simp] theorem accept_rnd (cmd : Byte) (key iv data : Bits) (s : State) : (accept cmd key iv data s).rnd = s.rnd := rfl
@[simp] theorem accept_nblk (cmd : Byte) (key iv data : Bits) (s : State) : (accept cmd key iv data s).nblk = s.nblk := rfl
@[simp] theorem accept_blk (cmd : Byte) (key iv data : Bits) (s : State) : (accept cmd key iv data s).blk = s.blk := rfl
@[simp] theorem accept_blkin (cmd : Byte) (key iv data : Bits) (s : State) : (accept cmd key iv data s).blkin = s.blkin := rfl
@[simp] theorem accept_l (cmd : Byte) (key iv data : Bits) (s : State) : (accept cmd key iv data s).l = s.l := rfl
@[simp] theorem accept_r (cmd : Byte) (key iv data : Bits) (s : State) : (accept cmd key iv data s).r = s.r := rfl
@[simp] theorem accept_preout (cmd : Byte) (key iv data : Bits) (s : State) : (accept cmd key iv data s).preout = s.preout := rfl
@[simp] theorem accept_blkout (cmd : Byte) (key iv data : Bits) (s : State) : (accept cmd key iv data s).blkout = s.blkout := rfl
@[simp] theorem accept_chain (cmd : Byte) (key iv data : Bits) (s : State) : (accept cmd key iv data s).chain = s.chain := rfl
@[simp] theorem accept_outbuf (cmd : Byte) (key iv data : Bits) (s : State) : (accept cmd key iv data s).outbuf = s.outbuf := rfl
@[simp] theorem accept_status (cmd : Byte) (key iv data : Bits) (s : State) : (accept cmd key iv data s).status = s.status := rfl
@[simp] theorem accept_diag (cmd : Byte) (key iv data : Bits) (s : State) : (accept cmd key iv data s).diag = s.diag := rfl
@[simp] theorem accept_rx (cmd : Byte) (key iv data : Bits) (s : State) : (accept cmd key iv data s).rx = s.rx := rfl
@[simp] theorem accept_host (cmd : Byte) (key iv data : Bits) (s : State) : (accept cmd key iv data s).host = s.host := rfl
@[simp] theorem accept_taken (cmd : Byte) (key iv data : Bits) (s : State) : (accept cmd key iv data s).taken = s.taken := rfl

@[simp] theorem raise_params (e : CmdError) (s : State) : (raise e s).params = s.params := rfl
@[simp] theorem raise_grain (e : CmdError) (s : State) : (raise e s).grain = s.grain := rfl
@[simp] theorem raise_phase (e : CmdError) (s : State) : (raise e s).phase = .respond := rfl
@[simp] theorem raise_cmdreg (e : CmdError) (s : State) : (raise e s).cmdreg = s.cmdreg := rfl
@[simp] theorem raise_keyop (e : CmdError) (s : State) : (raise e s).keyop = s.keyop := rfl
@[simp] theorem raise_ivop (e : CmdError) (s : State) : (raise e s).ivop = s.ivop := rfl
@[simp] theorem raise_dataop (e : CmdError) (s : State) : (raise e s).dataop = s.dataop := rfl
@[simp] theorem raise_keyreg (e : CmdError) (s : State) : (raise e s).keyreg = s.keyreg := rfl
@[simp] theorem raise_ivreg (e : CmdError) (s : State) : (raise e s).ivreg = s.ivreg := rfl
@[simp] theorem raise_c (e : CmdError) (s : State) : (raise e s).c = s.c := rfl
@[simp] theorem raise_d (e : CmdError) (s : State) : (raise e s).d = s.d := rfl
@[simp] theorem raise_ks (e : CmdError) (s : State) : (raise e s).ks = s.ks := rfl
@[simp] theorem raise_rnd (e : CmdError) (s : State) : (raise e s).rnd = s.rnd := rfl
@[simp] theorem raise_nblk (e : CmdError) (s : State) : (raise e s).nblk = s.nblk := rfl
@[simp] theorem raise_blk (e : CmdError) (s : State) : (raise e s).blk = s.blk := rfl
@[simp] theorem raise_blkin (e : CmdError) (s : State) : (raise e s).blkin = s.blkin := rfl
@[simp] theorem raise_l (e : CmdError) (s : State) : (raise e s).l = s.l := rfl
@[simp] theorem raise_r (e : CmdError) (s : State) : (raise e s).r = s.r := rfl
@[simp] theorem raise_preout (e : CmdError) (s : State) : (raise e s).preout = s.preout := rfl
@[simp] theorem raise_blkout (e : CmdError) (s : State) : (raise e s).blkout = s.blkout := rfl
@[simp] theorem raise_chain (e : CmdError) (s : State) : (raise e s).chain = s.chain := rfl
@[simp] theorem raise_outbuf (e : CmdError) (s : State) : (raise e s).outbuf = [] := rfl
@[simp] theorem raise_status (e : CmdError) (s : State) : (raise e s).status = e.status := rfl
@[simp] theorem raise_diag (e : CmdError) (s : State) : (raise e s).diag = e.diag := rfl
@[simp] theorem raise_rx (e : CmdError) (s : State) : (raise e s).rx = s.rx := rfl
@[simp] theorem raise_host (e : CmdError) (s : State) : (raise e s).host = s.host := rfl
@[simp] theorem raise_taken (e : CmdError) (s : State) : (raise e s).taken = s.taken := rfl

@[simp] theorem complete_params (s : State) : (complete s).params = s.params := rfl
@[simp] theorem complete_grain (s : State) : (complete s).grain = s.grain := rfl
@[simp] theorem complete_phase (s : State) : (complete s).phase = .respond := rfl
@[simp] theorem complete_cmdreg (s : State) : (complete s).cmdreg = s.cmdreg := rfl
@[simp] theorem complete_keyop (s : State) : (complete s).keyop = s.keyop := rfl
@[simp] theorem complete_ivop (s : State) : (complete s).ivop = s.ivop := rfl
@[simp] theorem complete_dataop (s : State) : (complete s).dataop = s.dataop := rfl
@[simp] theorem complete_keyreg (s : State) : (complete s).keyreg = s.keyreg := rfl
@[simp] theorem complete_ivreg (s : State) : (complete s).ivreg = s.ivreg := rfl
@[simp] theorem complete_c (s : State) : (complete s).c = s.c := rfl
@[simp] theorem complete_d (s : State) : (complete s).d = s.d := rfl
@[simp] theorem complete_ks (s : State) : (complete s).ks = s.ks := rfl
@[simp] theorem complete_rnd (s : State) : (complete s).rnd = s.rnd := rfl
@[simp] theorem complete_nblk (s : State) : (complete s).nblk = s.nblk := rfl
@[simp] theorem complete_blk (s : State) : (complete s).blk = s.blk := rfl
@[simp] theorem complete_blkin (s : State) : (complete s).blkin = s.blkin := rfl
@[simp] theorem complete_l (s : State) : (complete s).l = s.l := rfl
@[simp] theorem complete_r (s : State) : (complete s).r = s.r := rfl
@[simp] theorem complete_preout (s : State) : (complete s).preout = s.preout := rfl
@[simp] theorem complete_blkout (s : State) : (complete s).blkout = s.blkout := rfl
@[simp] theorem complete_chain (s : State) : (complete s).chain = s.chain := rfl
@[simp] theorem complete_outbuf (s : State) : (complete s).outbuf = s.outbuf := rfl
@[simp] theorem complete_status (s : State) : (complete s).status = statusOk := rfl
@[simp] theorem complete_diag (s : State) : (complete s).diag = 0#8 := rfl
@[simp] theorem complete_rx (s : State) : (complete s).rx = s.rx := rfl
@[simp] theorem complete_host (s : State) : (complete s).host = s.host := rfl
@[simp] theorem complete_taken (s : State) : (complete s).taken = s.taken := rfl

@[simp] theorem takeResponse_params (s : State) : (takeResponse s).params = s.params := rfl
@[simp] theorem takeResponse_grain (s : State) : (takeResponse s).grain = s.grain := rfl
@[simp] theorem takeResponse_phase (s : State) : (takeResponse s).phase = .idle := rfl
@[simp] theorem takeResponse_cmdreg (s : State) : (takeResponse s).cmdreg = s.cmdreg := rfl
@[simp] theorem takeResponse_keyop (s : State) : (takeResponse s).keyop = s.keyop := rfl
@[simp] theorem takeResponse_ivop (s : State) : (takeResponse s).ivop = s.ivop := rfl
@[simp] theorem takeResponse_dataop (s : State) : (takeResponse s).dataop = s.dataop := rfl
@[simp] theorem takeResponse_keyreg (s : State) : (takeResponse s).keyreg = s.keyreg := rfl
@[simp] theorem takeResponse_ivreg (s : State) : (takeResponse s).ivreg = s.ivreg := rfl
@[simp] theorem takeResponse_c (s : State) : (takeResponse s).c = s.c := rfl
@[simp] theorem takeResponse_d (s : State) : (takeResponse s).d = s.d := rfl
@[simp] theorem takeResponse_ks (s : State) : (takeResponse s).ks = s.ks := rfl
@[simp] theorem takeResponse_rnd (s : State) : (takeResponse s).rnd = s.rnd := rfl
@[simp] theorem takeResponse_nblk (s : State) : (takeResponse s).nblk = s.nblk := rfl
@[simp] theorem takeResponse_blk (s : State) : (takeResponse s).blk = s.blk := rfl
@[simp] theorem takeResponse_blkin (s : State) : (takeResponse s).blkin = s.blkin := rfl
@[simp] theorem takeResponse_l (s : State) : (takeResponse s).l = s.l := rfl
@[simp] theorem takeResponse_r (s : State) : (takeResponse s).r = s.r := rfl
@[simp] theorem takeResponse_preout (s : State) : (takeResponse s).preout = s.preout := rfl
@[simp] theorem takeResponse_blkout (s : State) : (takeResponse s).blkout = s.blkout := rfl
@[simp] theorem takeResponse_chain (s : State) : (takeResponse s).chain = s.chain := rfl
@[simp] theorem takeResponse_outbuf (s : State) : (takeResponse s).outbuf = s.outbuf := rfl
@[simp] theorem takeResponse_status (s : State) : (takeResponse s).status = s.status := rfl
@[simp] theorem takeResponse_diag (s : State) : (takeResponse s).diag = s.diag := rfl
@[simp] theorem takeResponse_rx (s : State) : (takeResponse s).rx = s.rx := rfl
@[simp] theorem takeResponse_host (s : State) : (takeResponse s).host = s.host := rfl
@[simp] theorem takeResponse_taken (s : State) : (takeResponse s).taken = s.taken ++ [s.response.packet] := rfl

@[simp] theorem resetEvent_params (s : State) : (resetEvent s).params = s.params := rfl
@[simp] theorem resetEvent_grain (s : State) : (resetEvent s).grain = s.grain := rfl
@[simp] theorem resetEvent_phase (s : State) : (resetEvent s).phase = .idle := rfl
@[simp] theorem resetEvent_cmdreg (s : State) : (resetEvent s).cmdreg = State.reset.cmdreg := rfl
@[simp] theorem resetEvent_keyop (s : State) : (resetEvent s).keyop = State.reset.keyop := rfl
@[simp] theorem resetEvent_ivop (s : State) : (resetEvent s).ivop = State.reset.ivop := rfl
@[simp] theorem resetEvent_dataop (s : State) : (resetEvent s).dataop = State.reset.dataop := rfl
@[simp] theorem resetEvent_keyreg (s : State) : (resetEvent s).keyreg = State.reset.keyreg := rfl
@[simp] theorem resetEvent_ivreg (s : State) : (resetEvent s).ivreg = State.reset.ivreg := rfl
@[simp] theorem resetEvent_c (s : State) : (resetEvent s).c = State.reset.c := rfl
@[simp] theorem resetEvent_d (s : State) : (resetEvent s).d = State.reset.d := rfl
@[simp] theorem resetEvent_ks (s : State) : (resetEvent s).ks = State.reset.ks := rfl
@[simp] theorem resetEvent_rnd (s : State) : (resetEvent s).rnd = State.reset.rnd := rfl
@[simp] theorem resetEvent_nblk (s : State) : (resetEvent s).nblk = State.reset.nblk := rfl
@[simp] theorem resetEvent_blk (s : State) : (resetEvent s).blk = State.reset.blk := rfl
@[simp] theorem resetEvent_blkin (s : State) : (resetEvent s).blkin = State.reset.blkin := rfl
@[simp] theorem resetEvent_l (s : State) : (resetEvent s).l = State.reset.l := rfl
@[simp] theorem resetEvent_r (s : State) : (resetEvent s).r = State.reset.r := rfl
@[simp] theorem resetEvent_preout (s : State) : (resetEvent s).preout = State.reset.preout := rfl
@[simp] theorem resetEvent_blkout (s : State) : (resetEvent s).blkout = State.reset.blkout := rfl
@[simp] theorem resetEvent_chain (s : State) : (resetEvent s).chain = State.reset.chain := rfl
@[simp] theorem resetEvent_outbuf (s : State) : (resetEvent s).outbuf = State.reset.outbuf := rfl
@[simp] theorem resetEvent_status (s : State) : (resetEvent s).status = State.reset.status := rfl
@[simp] theorem resetEvent_diag (s : State) : (resetEvent s).diag = State.reset.diag := rfl
@[simp] theorem resetEvent_rx (s : State) : (resetEvent s).rx = [] := rfl
@[simp] theorem resetEvent_host (s : State) : (resetEvent s).host = s.host := rfl
@[simp] theorem resetEvent_taken (s : State) : (resetEvent s).taken = s.taken := rfl

@[simp] theorem raise_response (e : CmdError) (s : State) :
    (raise e s).response = { status := e.status, diag := e.diag, out := [] } := rfl

@[simp] theorem complete_response (s : State) :
    (complete s).response = { status := statusOk, diag := 0#8, out := s.outbuf } := rfl

end Sys2Proof.Machine
end

