-- ==== Sys2Proof/Laws/Sequencer.lean ====
section
/-! SUPPORT. One transition of the sequencer per phase, and its runs. -/

namespace Sys2Proof.Machine

/-- `SHIFTS[n]` for a round number of the schedule. -/
theorem memRead_shifts (n : Nat) (h1 : 1 ≤ n) (h2 : n ≤ 16) :
    ∃ k, memRead .shifts n = some k ∧ tableShifts[n - 1]? = some k.toNat := by
  interval_cases n <;> exact ⟨_, rfl, rfl⟩

/-- `KS[n]` for a round number. -/
theorem readSubkey_eq (s : State) (n : BitVec 5) (h1 : 1 ≤ n.toNat) (h2 : n.toNat ≤ 16) :
    readSubkey s n = some (s.ks[n.toNat - 1]'(by omega)) := by
  have : n ≠ 0#5 := by rintro rfl; simp at h1
  rw [readSubkey, if_neg this, Vector.getElem?_eq_getElem]

theorem seqStep_idle {s : State} (h : s.phase = .idle) : seqStep s = .next (stepIdle s) := by simp [seqStep, h]
theorem seqStep_decode {s : State} (h : s.phase = .decode) : seqStep s = .next (stepDecode s) := by simp [seqStep, h]
theorem seqStep_ksPc1 {s : State} (h : s.phase = .ksPc1) : seqStep s = .next (stepKsPc1 s) := by simp [seqStep, h]
theorem seqStep_ksRound {s : State} (h : s.phase = .ksRound) : seqStep s = stepKsRound s := by simp [seqStep, h]
theorem seqStep_blkLoad {s : State} (h : s.phase = .blkLoad) : seqStep s = stepBlkLoad s := by simp [seqStep, h]
theorem seqStep_ip {s : State} (h : s.phase = .ip) : seqStep s = .next (stepIp s) := by simp [seqStep, h]
theorem seqStep_round {s : State} (h : s.phase = .round) : seqStep s = stepRound s := by simp [seqStep, h]
theorem seqStep_swap {s : State} (h : s.phase = .swap) : seqStep s = .next (stepSwap s) := by simp [seqStep, h]
theorem seqStep_fp {s : State} (h : s.phase = .fp) : seqStep s = .next (stepFp s) := by simp [seqStep, h]
theorem seqStep_blkStore {s : State} (h : s.phase = .blkStore) : seqStep s = .next (stepBlkStore s) := by
  simp [seqStep, h]
theorem seqStep_respond {s : State} (h : s.phase = .respond) : seqStep s = .next s := by simp [seqStep, h]

/-- KS_ROUND with a round number of the schedule. -/
theorem stepKsRound_eq {s : State} (h1 : 1 ≤ s.rnd.toNat) (h2 : s.rnd.toNat ≤ 16) :
    ∃ k, tableShifts[s.rnd.toNat - 1]? = some k ∧ stepKsRound s = .next (afterKsRound (rotateAndStore k s)) := by
  obtain ⟨k, hk, hs⟩ := memRead_shifts _ h1 h2
  exact ⟨k.toNat, hs, by simp [stepKsRound, hk]⟩

/-- ROUND with a round number of the schedule. -/
theorem stepRound_eq {s : State} (h1 : 1 ≤ s.rnd.toNat) (h2 : s.rnd.toNat ≤ 16) :
    stepRound s = .next (feistel (s.ks[s.rnd.toNat - 1]'(by omega)) s) := by
  simp [stepRound, readSubkey_eq s s.rnd h1 h2]

/-- `RND + 1` below the last round. -/
theorem rnd_succ (n : BitVec 5) (h : n.toNat < 16) : (n + 1#5).toNat = n.toNat + 1 := by
  rw [BitVec.toNat_add]; simp; omega

theorem runToRespond_respond (n : Nat) {s : State} (h : s.phase = .respond) : runToRespond n s = .next s := by
  cases n <;> simp [runToRespond, h]

theorem runToRespond_step (n : Nat) {s t : State} (h : s.phase ≠ .respond) (hs : seqStep s = .next t) :
    runToRespond (n + 1) s = runToRespond n t := by simp [runToRespond, h, hs]

end Sys2Proof.Machine
end

