-- ==== Sys2Proof/Laws/Frames.lean ====
section
/-! SUPPORT. What one transition of the sequencer leaves alone: the host's side always; the latched command while
the core is not idle; the working registers DECODE wrote, once it is past. -/

namespace Sys2Proof.Machine

/-- The parameters, the grain and the host's side. -/
abbrev SideKept (s t : State) : Prop :=
  t.params = s.params ∧ t.grain = s.grain ∧ t.host = s.host ∧ t.taken = s.taken

/-- The latched command and the bytes received. -/
abbrev LatchKept (s t : State) : Prop :=
  t.cmdreg = s.cmdreg ∧ t.keyop = s.keyop ∧ t.ivop = s.ivop ∧ t.dataop = s.dataop ∧ t.rx = s.rx

/-- What DECODE selects from the operands. -/
abbrev SelectionKept (s t : State) : Prop := t.keyreg = s.keyreg ∧ t.ivreg = s.ivreg ∧ t.nblk = s.nblk

theorem raise_keeps (e : CmdError) (s : State) : SideKept s (raise e s) ∧ LatchKept s (raise e s) :=
  ⟨⟨rfl, rfl, rfl, rfl⟩, rfl, rfl, rfl, rfl, rfl⟩

/-- The decode transition writes no latch and no subkey. -/
theorem stepDecode_keeps (s : State) :
    SideKept s (stepDecode s) ∧ LatchKept s (stepDecode s) ∧ (stepDecode s).ks = s.ks := by
  unfold stepDecode
  split
  · unfold decodeDeriveKeys; split <;> simp [SideKept, LatchKept]
  · unfold decodeEncryptBlock; split
    · simp [SideKept, LatchKept]
    · split <;> simp [SideKept, LatchKept]
  · unfold decodeEncryptEcb; split
    · simp [SideKept, LatchKept]
    · split <;> simp [SideKept, LatchKept]
  · unfold decodeEncryptCbc; split
    · simp [SideKept, LatchKept]
    · split
      · simp [SideKept, LatchKept]
      · split <;> simp [SideKept, LatchKept]
  · simp [SideKept, LatchKept, decodeIllegal]

theorem afterKsRound_keeps (s : State) :
    SideKept s (afterKsRound s) ∧ LatchKept s (afterKsRound s) ∧ SelectionKept s (afterKsRound s) ∧
      (afterKsRound s).ks = s.ks := by
  unfold afterKsRound
  split
  · simp [SideKept, LatchKept, SelectionKept]
  · split
    · simp [SideKept, LatchKept, SelectionKept]
    · split <;> simp [SideKept, LatchKept, SelectionKept]

theorem stepBlkStore_keeps (s : State) :
    SideKept s (stepBlkStore s) ∧ LatchKept s (stepBlkStore s) ∧ SelectionKept s (stepBlkStore s) ∧
      (stepBlkStore s).ks = s.ks := by
  unfold stepBlkStore
  simp only
  split <;> simp [SideKept, LatchKept, SelectionKept]

/-- A KS_ROUND that does not fault is a rotation, a subkey write and a choice of what follows. -/
theorem stepKsRound_next {s t : State} (h : stepKsRound s = .next t) :
    ∃ k, memRead .shifts s.rnd.toNat = some k ∧ t = afterKsRound (rotateAndStore k.toNat s) := by
  unfold stepKsRound at h
  split at h
  · cases h
  · rename_i k hk
    exact ⟨k, hk, (Host.Outcome.next.inj h).symm⟩

/-- A round that does not fault is a Feistel update. -/
theorem stepRound_next {s t : State} (h : stepRound s = .next t) : ∃ k, t = feistel k s := by
  unfold stepRound at h
  split at h
  · cases h
  · exact ⟨_, (Host.Outcome.next.inj h).symm⟩

theorem stepBlkLoad_next {s t : State} (h : stepBlkLoad s = .next t) :
    s.blk < s.nblk ∧ t = { s with
      blkin := if chains s then blockAt s.dataop s.blk ^^^ s.chain else blockAt s.dataop s.blk, phase := .ip } := by
  unfold stepBlkLoad at h
  split at h
  · exact ⟨‹_›, (Host.Outcome.next.inj h).symm⟩
  · cases h

/-- Every transition: what it leaves alone, by phase. -/
theorem seqStep_keeps {s t : State} (h : seqStep s = .next t) :
    SideKept s t ∧ (s.phase ≠ .idle → LatchKept s t) ∧
    (s.phase ≠ .idle → s.phase ≠ .decode → SelectionKept s t) ∧
    (s.phase ≠ .ksRound → t.ks = s.ks) := by
  cases hs : s.phase with
  | idle =>
    rw [seqStep_idle hs] at h
    obtain rfl := Host.Outcome.next.inj h
    unfold stepIdle
    split <;> simp [SideKept]
  | decode =>
    rw [seqStep_decode hs] at h
    obtain rfl := Host.Outcome.next.inj h
    have := stepDecode_keeps s
    simp_all [SideKept, LatchKept, SelectionKept]
  | ksPc1 =>
    rw [seqStep_ksPc1 hs] at h
    obtain rfl := Host.Outcome.next.inj h
    simp [SideKept, LatchKept, SelectionKept, stepKsPc1]
  | ksRound =>
    rw [seqStep_ksRound hs] at h
    obtain ⟨k, -, rfl⟩ := stepKsRound_next h
    have := afterKsRound_keeps (rotateAndStore k.toNat s)
    simp_all [SideKept, LatchKept, SelectionKept, rotateAndStore]
  | blkLoad =>
    rw [seqStep_blkLoad hs] at h
    obtain ⟨-, rfl⟩ := stepBlkLoad_next h
    simp [SideKept, LatchKept, SelectionKept]
  | ip =>
    rw [seqStep_ip hs] at h
    obtain rfl := Host.Outcome.next.inj h
    simp [SideKept, LatchKept, SelectionKept, stepIp]
  | round =>
    rw [seqStep_round hs] at h
    obtain ⟨k, rfl⟩ := stepRound_next h
    simp [SideKept, LatchKept, SelectionKept, feistel]
  | swap =>
    rw [seqStep_swap hs] at h
    obtain rfl := Host.Outcome.next.inj h
    simp [SideKept, LatchKept, SelectionKept, stepSwap]
  | fp =>
    rw [seqStep_fp hs] at h
    obtain rfl := Host.Outcome.next.inj h
    simp [SideKept, LatchKept, SelectionKept, stepFp]
  | blkStore =>
    rw [seqStep_blkStore hs] at h
    obtain rfl := Host.Outcome.next.inj h
    have := stepBlkStore_keeps s
    simp_all [SideKept, LatchKept, SelectionKept]
  | respond =>
    rw [seqStep_respond hs] at h
    obtain rfl := Host.Outcome.next.inj h
    simp [SideKept, LatchKept, SelectionKept]

theorem runToRespond_sideKept (n : Nat) {s t : State} (h : runToRespond n s = .next t) : SideKept s t := by
  induction n generalizing s with
  | zero => obtain rfl := Host.Outcome.next.inj h; exact ⟨rfl, rfl, rfl, rfl⟩
  | succ n ih =>
    unfold runToRespond at h
    split at h
    · obtain rfl := Host.Outcome.next.inj h; exact ⟨rfl, rfl, rfl, rfl⟩
    · split at h
      · rename_i u hu
        have h1 := (seqStep_keeps hu).1
        have h2 := ih h
        unfold SideKept at *
        simp_all
      · cases h
      · cases h

end Sys2Proof.Machine
end

