-- ==== Sys2Proof/Laws/Reference.lean ====
section
/-! SUPPORT. The reference functions: the key schedule entry by entry, the rounds one at a time, the cipher blocks
one at a time, and the checks of a command. -/

namespace Sys2Proof.Machine

open Sys2Proof.Config

theorem scheduleFrom_length (ks : List Nat) (c d : HalfKey) : (scheduleFrom ks c d).length = ks.length := by
  induction ks generalizing c d with
  | nil => rfl
  | cons k ks ih => simp [scheduleFrom, ih]

@[simp] theorem keySchedule_length (k : Block) : (keySchedule k).length = 16 := by
  simp [keySchedule, scheduleFrom_length, tableShifts]

/-- Entry `n` of a schedule is the compression of the halves after `n + 1` rotations. -/
theorem scheduleFrom_getElem? (ks : List Nat) (c d : HalfKey) (n : Nat) (h : n < ks.length) :
    (scheduleFrom ks c d)[n]? = some (compress ((ks.take (n + 1)).foldl (fun c k => rol k c) c)
      ((ks.take (n + 1)).foldl (fun d k => rol k d) d)) := by
  induction ks generalizing c d n with
  | nil => simp at h
  | cons k ks ih =>
    cases n with
    | zero => simp [scheduleFrom]
    | succ n =>
      simp only [List.length_cons, Nat.add_lt_add_iff_right] at h
      simp [scheduleFrom, ih _ _ _ h]

theorem keySchedule_getElem? (k : Block) (n : Nat) (h : n < 16) :
    (keySchedule k)[n]? = some (compress (halvesAfter k (n + 1)).1 (halvesAfter k (n + 1)).2) :=
  scheduleFrom_getElem? _ _ _ _ (by simpa [tableShifts] using h)

theorem halvesAfter_zero (k : Block) : halvesAfter k 0 = (keyC0 k, keyD0 k) := rfl

theorem halvesAfter_succ (k : Block) (n m : Nat) (h : tableShifts[n]? = some m) :
    halvesAfter k (n + 1) = (rol m (halvesAfter k n).1, rol m (halvesAfter k n).2) := by
  simp [halvesAfter, List.take_add_one, h]

theorem rounds_append (a b : List Subkey) (x : HalfBlock × HalfBlock) :
    rounds (a ++ b) x = rounds b (rounds a x) := by
  induction a generalizing x with
  | nil => rfl
  | cons k a ih => simp [rounds, ih]

/-- One more round. -/
theorem rounds_take_succ (K : List Subkey) (n : Nat) (x : HalfBlock × HalfBlock) (h : n < K.length) :
    rounds (K.take (n + 1)) x =
      ((rounds (K.take n) x).2, (rounds (K.take n) x).1 ^^^ roundF (rounds (K.take n) x).2 K[n]) := by
  rw [List.take_add_one, rounds_append, List.getElem?_eq_getElem h]
  rfl

@[simp] theorem ecbBlocks_length (K : List Subkey) (bs : List Block) : (ecbBlocks K bs).length = bs.length := by
  simp [ecbBlocks]

@[simp] theorem cbcBlocks_length (K : List Subkey) (v : Block) (bs : List Block) :
    (cbcBlocks K v bs).length = bs.length := by
  induction bs generalizing v with
  | nil => rfl
  | cons b bs ih => simp [cbcBlocks, ih]

@[simp] theorem cipherBlocks_length (op : Opcode) (K : List Subkey) (v : Block) (bs : List Block) :
    (cipherBlocks op K v bs).length = bs.length := by
  cases op <;> simp [cipherBlocks]

/-- Block `j` of a CBC ciphertext is the encryption of plaintext block `j` with what chains into it. -/
theorem cbcBlocks_getElem? (K : List Subkey) (v : Block) (bs : List Block) (j : Nat) :
    (cbcBlocks K v bs)[j]? = (bs[j]?).map fun b => desEnc (b ^^^ chainBefore K v bs j) K := by
  induction bs generalizing v j with
  | nil => simp [cbcBlocks]
  | cons b bs ih =>
    cases j with
    | zero => simp [cbcBlocks, chainBefore]
    | succ j => simp [cbcBlocks, chainBefore, ih]

/-- A ciphertext block chains into the next block. -/
theorem chainBefore_succ (K : List Subkey) (v : Block) (bs : List Block) (j : Nat) (b : Block) (h : bs[j]? = some b) :
    chainBefore K v bs (j + 1) = desEnc (b ^^^ chainBefore K v bs j) K := by
  induction bs generalizing v j with
  | nil => simp at h
  | cons a bs ih =>
    cases j with
    | zero =>
      simp only [List.getElem?_cons_zero, Option.some.injEq] at h
      subst h
      simp [chainBefore]
    | succ j => simpa [chainBefore] using ih _ _ (by simpa using h)

theorem blockBits_append (a b : List Block) : blockBits (a ++ b) = blockBits a ++ blockBits b := by
  simp [blockBits]

theorem blockBits_length (a : List Block) : (blockBits a).length = 64 * a.length := by
  induction a with
  | nil => rfl
  | cons x a ih =>
    simp only [blockBits, List.flatMap_cons, List.length_append, toBits_length, List.length_cons] at ih ⊢
    omega

@[simp] theorem dataBlocks_length (p : Params) (d : Bits) : (dataBlocks p d).length = blockCount p d := by
  simp [dataBlocks]

theorem dataBlocks_getElem? (p : Params) (d : Bits) (j : Nat) (h : j < blockCount p d) :
    (dataBlocks p d)[j]? = some (blockAt d j) := by
  simp [dataBlocks, h]

/-- A 64-bit operand is its own only block. -/
theorem blockAt_zero_eq_first64 (d : Bits) (h : d.length = 64) : blockAt d 0 = first64 d := by
  have ht : d.take 64 = d := List.take_of_length_le (by omega)
  simp [blockAt, first64, ht, zeropad, h]

theorem first64_of_length (d : Bits) (h : d.length = 64) : toBits (first64 d) = d := by
  have ht : d.take 64 = d := List.take_of_length_le (by omega)
  rw [first64, ht, toBits_ofBits _ h]

/-- The checks of DERIVE_KEYS (60_exceptions.md R233, R235). -/
theorem firstError_deriveKeys {c : Byte} (h : opcodeOf c = some .deriveKeys) (p : Params) (k v d : Bits) :
    firstError p c k v d = if k.length ≠ 64 then some (.lengthContractViolation .key) else none := by
  simp only [firstError, h, checkKey, checkIv, checkDataLength, checkCapacity]
  by_cases hk : k.length ≠ 64 <;> simp [hk]

/-- The checks of ENCRYPT_BLOCK. -/
theorem firstError_encryptBlock {c : Byte} (h : opcodeOf c = some .encryptBlock) (p : Params) (k v d : Bits) :
    firstError p c k v d = if k.length ≠ 64 then some (.lengthContractViolation .key)
      else if d.length ≠ 64 then some (.lengthContractViolation .data) else none := by
  simp only [firstError, h, checkKey, checkIv, checkDataLength, checkCapacity]
  by_cases hk : k.length ≠ 64 <;> by_cases hd : d.length ≠ 64 <;> simp [hk, hd]

/-- The checks of ENCRYPT_ECB. -/
theorem firstError_encryptEcb {c : Byte} (h : opcodeOf c = some .encryptEcb) (p : Params) (k v d : Bits) :
    firstError p c k v d = if k.length < 64 then some (.lengthContractViolation .key)
      else if p.maxDataBits < d.length then some (.capacityExceeded .data) else none := by
  simp only [firstError, h, checkKey, checkIv, checkDataLength, checkCapacity]
  by_cases hk : k.length < 64 <;> simp [hk]

/-- The checks of ENCRYPT_CBC. -/
theorem firstError_encryptCbc {c : Byte} (h : opcodeOf c = some .encryptCbc) (p : Params) (k v d : Bits) :
    firstError p c k v d = if k.length < 64 then some (.lengthContractViolation .key)
      else if v.length < 64 then some (.lengthContractViolation .iv)
      else if p.maxDataBits < d.length then some (.capacityExceeded .data) else none := by
  simp only [firstError, h, checkKey, checkIv, checkDataLength, checkCapacity]
  by_cases hk : k.length < 64 <;> by_cases hv : v.length < 64 <;> simp [hk, hv]

/-- The check of an unassigned command byte (R231). -/
theorem firstError_illegal {c : Byte} (h : opcodeOf c = none) (p : Params) (k v d : Bits) :
    firstError p c k v d = some .illegalCommand := by simp [firstError, h]

/-- The checks that a command which passes them has passed (R233, R234). -/
theorem firstError_none {p : Params} {c : Byte} {k v d : Bits} (h : firstError p c k v d = none) :
    (opcodeOf c = some .deriveKeys ∧ k.length = 64) ∨
    (opcodeOf c = some .encryptBlock ∧ k.length = 64 ∧ d.length = 64) ∨
    (opcodeOf c = some .encryptEcb ∧ 64 ≤ k.length ∧ d.length ≤ p.maxDataBits) ∨
    (opcodeOf c = some .encryptCbc ∧ 64 ≤ k.length ∧ 64 ≤ v.length ∧ d.length ≤ p.maxDataBits) := by
  unfold firstError at h
  cases ho : opcodeOf c with
  | none => simp [ho] at h
  | some op =>
    cases op <;>
      simp [ho, checkKey, checkIv, checkDataLength, checkCapacity] at h ⊢ <;> omega

theorem blockCount_le (p : Params) (d : Bits) (h : d.length ≤ 2 ^ 32 - 1) : blockCount p d ≤ 2 ^ 26 := by
  unfold blockCount
  split <;> omega

/-- The first 64 bits of a 64-bit value followed by more bits. -/
theorem first64_append (k : Block) (x : Bits) : first64 (toBits k ++ x) = k := by
  rw [first64, List.take_left' (toBits_length k), ofBits_toBits]

/-- The first 64 bits of a 64-bit operand. -/
theorem first64_toBits (k : Block) : first64 (toBits k) = k := by simpa using first64_append k []

/-- The bits that the first 64 bits of an operand hold. -/
theorem toBits_first64 (x : Bits) (h : 64 ≤ x.length) : toBits (first64 x) = x.take 64 := by
  rw [first64, toBits_ofBits]; simp; omega

/-- Bit `j` of a data block, zero past the end of the data. -/
theorem getMsbD_blockAt (d : Bits) (b j : Nat) (h : j < 64) : (blockAt d b).getMsbD j = (d[64 * b + j]?).getD false := by
  rw [blockAt, getMsbD_ofBits _ (zeropad_length _ _ (by simp))]
  rw [zeropad]
  by_cases hj : 64 * b + j < d.length
  · rw [List.getElem?_append_left (by simp; omega), List.getElem?_take_of_lt h, List.getElem?_drop]
  · rw [List.getElem?_append_right (by simp; omega), List.getElem?_eq_none (by omega : d.length ≤ 64*b+j)]
    rw [List.getElem?_replicate]
    split <;> rfl

/-- ENCRYPT_CBC has command byte 04. -/
theorem chains_iff (s : State) : chains s = decide (s.cmdreg = 0x04#8) := by
  unfold chains; generalize s.cmdreg = c; revert c; decide +kernel

/-- The first blocks of concatenated blocks. -/
theorem blockBits_take (bs : List Block) (n : Nat) : (blockBits bs).take (64 * n) = blockBits (bs.take n) := by
  induction n generalizing bs with
  | zero => simp [blockBits]
  | succ n ih =>
    cases bs with
    | nil => simp [blockBits]
    | cons b bs =>
      have e : blockBits (b :: bs) = toBits b ++ blockBits bs := by simp [blockBits]
      rw [e, show 64 * (n + 1) = 64 + 64 * n by omega, List.take_append, List.take_of_length_le (by simp)]
      simp only [toBits_length, Nat.add_sub_cancel_left, ih]
      simp [blockBits]

/-- One block of concatenated blocks. -/
theorem blockBits_block (bs : List Block) (j : Nat) (b : Block) (h : bs[j]? = some b) : ((blockBits bs).drop (64 * j)).take 64 = toBits b := by
  induction bs generalizing j with
  | nil => simp at h
  | cons a bs ih =>
    cases j with
    | zero => simp at h; subst h; simp [blockBits, List.take_left' (toBits_length _)]
    | succ j =>
      have e : blockBits (a :: bs) = toBits a ++ blockBits bs := by simp [blockBits]
      rw [e, show 64 * (j + 1) = 64 + 64 * j by omega, ← List.drop_drop, List.drop_left' (toBits_length _)]
      exact ih _ (by simpa using h)

/-- Sixteen subkeys take 768 bits. -/
theorem subkeyBits_length : ∀ l : List Subkey, (subkeyBits l).length = 48 * l.length := by
  intro l; induction l with
  | nil => rfl
  | cons a l ih => simp [subkeyBits] at ih ⊢; omega

/-- Data that is not empty has a block. -/
theorem blockCount_pos {p : Params} {d : Bits} (h : d ≠ []) : 0 < blockCount p d := by
  have := List.length_pos_of_ne_nil h
  unfold blockCount; split <;> omega

end Sys2Proof.Machine
end

