-- ==== Sys2Proof/Laws/Invariant.lean ====
section
/-! SUPPORT. One transition of the sequencer keeps what each phase may rely on (`PhaseInv`), and none faults there. -/

namespace Sys2Proof.Machine
open Sys2Proof.Config

theorem phaseInv_idle {s : State} (h : s.phase = .idle ∨ s.phase = .decode) : PhaseInv s := by
  rcases h with h | h <;> simp [PhaseInv, h]

/-- Raising the command's first error leaves its response on offer. -/
theorem phaseInv_raise {s : State} (e : CmdError)
    (he : firstError s.params s.cmdreg s.keyop s.ivop s.dataop = some e) : PhaseInv (raise e s) := by
  simp [PhaseInv, execRef, he]

theorem phaseInv_decoded {s : State} (hph : s.phase = .ksPc1) (h : KeyStage s) : PhaseInv s := by
  simp only [PhaseInv, hph, reduceCtorEq, false_implies, forall_const, and_true]
  exact h

theorem phaseInv_stepDecode (s : State) : PhaseInv (stepDecode s) := by
  unfold stepDecode
  cases ho : opcodeOf s.cmdreg with
  | none => exact phaseInv_raise _ (firstError_illegal ho ..)
  | some op =>
    cases op with
    | deriveKeys =>
      have he := firstError_deriveKeys ho s.params s.keyop s.ivop s.dataop
      simp only [decodeDeriveKeys]
      split
      · exact phaseInv_raise _ (by simp_all)
      · exact phaseInv_decoded rfl (by simp_all [KeyStage, Decoded, State.op, latchedPlain, plainBlocks])
    | encryptBlock =>
      have he := firstError_encryptBlock ho s.params s.keyop s.ivop s.dataop
      simp only [decodeEncryptBlock]
      split
      · exact phaseInv_raise _ (by simp_all)
      split
      · exact phaseInv_raise _ (by simp_all)
      · exact phaseInv_decoded rfl (by simp_all [KeyStage, Decoded, State.op, latchedPlain, plainBlocks])
    | encryptEcb =>
      have he := firstError_encryptEcb ho s.params s.keyop s.ivop s.dataop
      simp only [decodeEncryptEcb]
      split
      · exact phaseInv_raise _ (by simp_all)
      split
      · exact phaseInv_raise _ (by rw [he, if_neg (by assumption), if_pos (by assumption)])
      · refine phaseInv_decoded rfl ?_
        rw [if_neg (by assumption), if_neg (by assumption)] at he
        simp_all [KeyStage, Decoded, State.op, latchedPlain, plainBlocks]
    | encryptCbc =>
      have he := firstError_encryptCbc ho s.params s.keyop s.ivop s.dataop
      simp only [decodeEncryptCbc]
      split
      · exact phaseInv_raise _ (by simp_all)
      split
      · exact phaseInv_raise _ (by rw [he, if_neg (by assumption), if_pos (by assumption)])
      split
      · exact phaseInv_raise _ (by rw [he, if_neg (by assumption), if_neg (by assumption), if_pos (by assumption)])
      · refine phaseInv_decoded rfl ?_
        rw [if_neg (by assumption), if_neg (by assumption), if_neg (by assumption)] at he
        simp_all [KeyStage, Decoded, State.op, latchedPlain, plainBlocks]

theorem phaseInv_stepKsPc1 {s : State} (hs : s.phase = .ksPc1) (h : PhaseInv s) : PhaseInv (stepKsPc1 s) := by
  obtain ⟨hk, -⟩ := h
  have hk := hk hs
  simp only [stepKsPc1, PhaseInv, reduceCtorEq, false_implies, true_and, forall_const, and_true]
  exact ⟨hk, by simp [KeyRound, halvesAfter_zero]⟩

theorem latchedCipher_length (s : State) : (latchedCipher s).length = (latchedPlain s).length := by
  unfold latchedCipher
  cases h : s.op <;> simp [latchedPlain, h]

theorem keyRound_next {s : State} {k : Nat} (h1 : 1 ≤ s.rnd.toNat) (h2 : s.rnd.toNat ≤ 16)
   (hk : tableShifts[s.rnd.toNat - 1]? = some k) (h : KeyRound s) :
   ((rotateAndStore k s).c, (rotateAndStore k s).d) = halvesAfter s.keyreg s.rnd.toNat ∧
   (rotateAndStore k s).ks.toList.take s.rnd.toNat = (keySchedule s.keyreg).take s.rnd.toNat := by
  obtain ⟨-, -, hh, ht⟩ := h
  have e : s.rnd.toNat = s.rnd.toNat - 1 + 1 := by omega
  have h15 : s.rnd.toNat - 1 < 16 := by omega
  generalize s.rnd.toNat - 1 = n at *
  have hks : (rotateAndStore k s).ks.toList = s.ks.toList.set n (compress (rol k s.c) (rol k s.d)) := by
    simp [rotateAndStore, e]
  rw [e, halvesAfter_succ _ _ _ hk, ← hh, hks]
  refine ⟨rfl, ?_⟩
  rw [List.take_add_one, List.take_add_one, keySchedule_getElem? _ _ h15, halvesAfter_succ _ _ _ hk, ← hh, ← ht,
    List.getElem?_set_self (by simpa using h15), List.take_set_of_le (Nat.le_refl n)]

theorem phaseInv_afterKsRound {s : State} (h1 : 1 ≤ s.rnd.toNat) (h2 : s.rnd.toNat ≤ 16)
  (hk : KeyStage s) (hh : (s.c, s.d) = halvesAfter s.keyreg s.rnd.toNat)
  (ht : s.ks.toList.take s.rnd.toNat = (keySchedule s.keyreg).take s.rnd.toNat) : PhaseInv (afterKsRound s) := by
  unfold afterKsRound
  split
  · simp only [PhaseInv, reduceCtorEq, false_implies, true_and, forall_const, and_true]
    refine ⟨hk, ?_⟩
    have := rnd_succ s.rnd ‹_›
    simp only [KeyRound, this, Nat.add_sub_cancel]
    exact ⟨by omega, by omega, hh, ht⟩
  have h16 : s.rnd.toNat = 16 := by omega
  have hks : s.ks.toList = keySchedule s.keyreg := by
    rw [h16, List.take_of_length_le (by simp), List.take_of_length_le (by simp)] at ht
    exact ht
  obtain ⟨⟨he, hkey, hiv, hnb⟩, hout, hblk, hchain⟩ := hk
  split
  · rename_i hop
    simp only [complete_phase, PhaseInv, reduceCtorEq, false_implies, true_and, forall_const]
    simp [execRef, he, hop, resultBits, hks, hkey]
  split
  · rename_i hop h0
    simp only [complete_phase, PhaseInv, reduceCtorEq, false_implies, true_and, forall_const]
    rcases firstError_none he with h | h | h | h
    · exact absurd h.1 hop
    · simp [h0, latchedPlain, State.op, h.1, plainBlocks] at hnb
    · simp [h0, latchedPlain, State.op, h.1, plainBlocks] at hnb
      simp [execRef, he, h.1, resultBits, ecb, dataBlocks, ← hnb, ecbBlocks, blockBits]
    · simp [h0, latchedPlain, State.op, h.1, plainBlocks] at hnb
      simp [execRef, he, h.1, resultBits, cbc, dataBlocks, ← hnb, cbcBlocks, blockBits]
  · rename_i hop h0
    simp only [PhaseInv, reduceCtorEq, false_implies, true_and, forall_const, and_true]
    have hb := hblk hop
    refine ⟨⟨he, hkey, hiv, hnb⟩, hop, hks, by simp [hb]; omega, by simp [hb, hout, blockBits], ?_⟩
    intro hc
    simp only [hb]
    rw [chainBefore]
    exact hchain hc

theorem phaseInv_stepKsRound {s : State} (hs : s.phase = .ksRound) (h : PhaseInv s) : ∃ t, stepKsRound s = .next t ∧ PhaseInv t := by
  obtain ⟨-, hk, -⟩ := h
  obtain ⟨hk, hr⟩ := hk hs
  obtain ⟨k, hk1, hk2⟩ := stepKsRound_eq hr.1 hr.2.1
  refine ⟨_, hk2, ?_⟩
  obtain ⟨a, b⟩ := keyRound_next hr.1 hr.2.1 hk1 hr
  exact phaseInv_afterKsRound hr.1 hr.2.1 hk a b

theorem phaseInv_stepBlkLoad {s : State} (hs : s.phase = .blkLoad) (h : PhaseInv s) : ∃ t, stepBlkLoad s = .next t ∧ PhaseInv t := by
  obtain ⟨-, -, hb, -⟩ := h
  have hb := hb hs
  refine ⟨_, if_pos hb.2.2.2.1, ?_⟩
  simp only [PhaseInv, reduceCtorEq, false_implies, true_and, forall_const, and_true]
  exact ⟨hb, rfl⟩

theorem phaseInv_stepIp {s : State} (hs : s.phase = .ip) (h : PhaseInv s) : PhaseInv (stepIp s) := by
  obtain ⟨-, -, -, hb, -⟩ := h
  have hb := hb hs
  simp only [stepIp, PhaseInv, reduceCtorEq, false_implies, true_and, forall_const, and_true]
  refine ⟨hb, by simp, by simp, ?_⟩
  simp [rounds, initialHalves]

theorem phaseInv_stepRound {s : State} (hs : s.phase = .round) (h : PhaseInv s) : ∃ t, stepRound s = .next t ∧ PhaseInv t := by
  obtain ⟨-, -, -, -, hb, -⟩ := h
  obtain ⟨hb, h1, h2, hlr⟩ := hb hs
  refine ⟨_, stepRound_eq h1 h2, ?_⟩
  have e : s.rnd.toNat - 1 + 1 = s.rnd.toNat := by omega
  have hr := rounds_take_succ s.ks.toList (s.rnd.toNat - 1) (initialHalves s.blkin) (by simp; omega)
  rw [← hlr, e] at hr
  by_cases h16 : s.rnd.toNat < 16
  · simp only [feistel, if_pos h16, PhaseInv, reduceCtorEq, false_implies, true_and, forall_const, and_true]
    refine ⟨hb, by rw [rnd_succ _ h16]; omega, by rw [rnd_succ _ h16]; omega, ?_⟩
    rw [rnd_succ _ h16, Nat.add_sub_cancel, hr]
    simp
  · simp only [feistel, if_neg h16, PhaseInv, reduceCtorEq, false_implies, true_and, forall_const, and_true]
    refine ⟨hb, ?_⟩
    have : s.rnd.toNat = 16 := by omega
    rw [List.take_of_length_le (by simp; omega)] at hr
    simp [halvesOut, hr]

theorem phaseInv_stepSwap {s : State} (hs : s.phase = .swap) (h : PhaseInv s) : PhaseInv (stepSwap s) := by
  obtain ⟨-, -, -, -, -, hb, -⟩ := h
  obtain ⟨hb, hlr⟩ := hb hs
  simp only [stepSwap, PhaseInv, reduceCtorEq, false_implies, true_and, forall_const, and_true]
  refine ⟨hb, ?_⟩
  have : halvesOut { s with preout := s.r ++ s.l, phase := .fp } = halvesOut s := rfl
  rw [this, ← hlr]

theorem phaseInv_stepFp {s : State} (hs : s.phase = .fp) (h : PhaseInv s) : PhaseInv (stepFp s) := by
  obtain ⟨-, -, -, -, -, -, hb, -⟩ := h
  obtain ⟨hb, hlr⟩ := hb hs
  simp only [stepFp, PhaseInv, reduceCtorEq, false_implies, true_and, forall_const, and_true]
  refine ⟨hb, ?_⟩
  rw [hlr]
  rfl

theorem latchedPlain_blk {s : State} (hd : Decoded s) (h : s.blk < s.nblk) : (latchedPlain s)[s.blk]? = some (blockAt s.dataop s.blk) := by
  obtain ⟨he, -, -, hnb⟩ := hd
  rcases firstError_none he with h' | h' | h' | h' <;> simp [latchedPlain, State.op, h'.1, plainBlocks] at hnb ⊢
  · omega
  · have h0 : s.blk = 0 := by omega
    rw [h0, blockAt_zero_eq_first64 _ h'.2.2]; rfl
  · exact dataBlocks_getElem? _ _ _ (by omega)
  · exact dataBlocks_getElem? _ _ _ (by omega)

theorem latchedCipher_blk {s : State} (hb : BlockStage s) : (latchedCipher s)[s.blk]? = some (desEnc (blockInput s) s.ks.toList) := by
  obtain ⟨hd, hop, hks, hlt, -, hch⟩ := hb
  have hpl := latchedPlain_blk hd hlt
  unfold latchedCipher
  have ho : s.op = opcodeOf s.cmdreg := rfl
  rcases firstError_none hd.1 with h' | h' | h' | h'
  · exact absurd h'.1 hop
  · simp [ho, h'.1, cipherBlocks, ecbBlocks, hpl, blockInput, chains, hks]
  · simp [ho, h'.1, cipherBlocks, ecbBlocks, hpl, blockInput, chains, hks]
  · simp [ho, h'.1, cipherBlocks, cbcBlocks_getElem?, hpl, blockInput, chains, hks, hch h'.1]

theorem resultBits_latched {s : State} (hd : Decoded s) (hop : s.op ≠ some .deriveKeys) :
   execRef s.params s.cmdreg s.keyop s.ivop s.dataop = ⟨statusOk, 0#8, blockBits (latchedCipher s)⟩ := by
  have ho : s.op = opcodeOf s.cmdreg := rfl
  rcases firstError_none hd.1 with h' | h' | h' | h'
  · exact absurd h'.1 hop
  · simp [execRef, hd.1, h'.1, resultBits, latchedCipher, latchedPlain, plainBlocks, cipherBlocks, ecbBlocks, blockBits, hd.2.1]
  · simp [execRef, hd.1, h'.1, resultBits, latchedCipher, latchedPlain, plainBlocks, cipherBlocks, ecb, hd.2.1]
  · simp [execRef, hd.1, h'.1, resultBits, latchedCipher, latchedPlain, plainBlocks, cipherBlocks, cbc, hd.2.1, hd.2.2.1 h'.1]

theorem phaseInv_stepBlkStore {s : State} (hs : s.phase = .blkStore) (h : PhaseInv s) : PhaseInv (stepBlkStore s) := by
  obtain ⟨-, -, -, -, -, -, -, hb, -⟩ := h
  obtain ⟨⟨hb, hin⟩, hout⟩ := hb hs
  have hcb := latchedCipher_blk hb
  obtain ⟨hd, hop, hks, hlt, hbuf, hch⟩ := hb
  have hpl := latchedPlain_blk hd hlt
  rw [← hin, ← hout] at hcb
  have hbits : blockBits ((latchedCipher s).take (s.blk + 1)) = s.outbuf ++ toBits s.blkout := by
    rw [List.take_add_one, hcb, blockBits_append, ← hbuf]; simp [blockBits]
  unfold stepBlkStore
  simp only
  split
  · rename_i hlt'
    simp only [PhaseInv, reduceCtorEq, false_implies, true_and, forall_const, and_true]
    refine ⟨hd, hop, hks, hlt', hbits.symm, ?_⟩
    intro hc
    have hc' : opcodeOf s.cmdreg = some .encryptCbc := hc
    have h1 := chainBefore_succ (keySchedule s.keyreg) s.ivreg (latchedPlain s) s.blk _ hpl
    rw [← hch hc] at h1
    refine Eq.trans ?_ h1.symm
    simp [chains, hc', hout, hin, blockInput, hks]
  · simp only [complete_phase, PhaseInv, reduceCtorEq, false_implies, true_and, forall_const]
    rw [complete_response]
    simp only [complete_params, complete_cmdreg, complete_keyop, complete_ivop, complete_dataop]
    rw [resultBits_latched hd hop]
    have hl : s.blk + 1 = (latchedCipher s).length := by
      rw [latchedCipher_length]; have := hd.2.2.2; omega
    rw [hl, List.take_length] at hbits
    rw [hbits]

theorem phaseInv_seqStep {s : State} (h : PhaseInv s) : ∃ t, seqStep s = .next t ∧ PhaseInv t := by
  cases hs : s.phase with
  | idle =>
    refine ⟨_, seqStep_idle hs, ?_⟩
    unfold stepIdle
    split
    · exact phaseInv_idle (.inr rfl)
    · exact h
  | decode => exact ⟨_, seqStep_decode hs, phaseInv_stepDecode s⟩
  | ksPc1 => exact ⟨_, seqStep_ksPc1 hs, phaseInv_stepKsPc1 hs h⟩
  | ksRound => rw [seqStep_ksRound hs]; exact phaseInv_stepKsRound hs h
  | blkLoad => rw [seqStep_blkLoad hs]; exact phaseInv_stepBlkLoad hs h
  | ip => exact ⟨_, seqStep_ip hs, phaseInv_stepIp hs h⟩
  | round => rw [seqStep_round hs]; exact phaseInv_stepRound hs h
  | swap => exact ⟨_, seqStep_swap hs, phaseInv_stepSwap hs h⟩
  | fp => exact ⟨_, seqStep_fp hs, phaseInv_stepFp hs h⟩
  | blkStore => exact ⟨_, seqStep_blkStore hs, phaseInv_stepBlkStore hs h⟩
  | respond => exact ⟨_, seqStep_respond hs, h⟩
end Sys2Proof.Machine
end

