-- ==== Sys2Proof/Laws/Runs.lean ====
section
/-! SUPPORT. Runs of the sequencer as explicit states: the sixteen key-schedule rounds, the twenty-one transitions of
a block, and all the blocks of a command. -/

namespace Sys2Proof.Machine

/-- `n` transitions from `s` to `t`, none of them from IDLE or RESPOND. -/
def Path : Nat → State → State → Prop
  | 0, s, t => s = t
  | n + 1, s, t => s.phase ≠ .idle ∧ s.phase ≠ .respond ∧ ∃ u, seqStep s = .next u ∧ Path n u t

theorem Path.trans {a b : Nat} {s t u : State} (h : Path a s t) (h' : Path b t u) : Path (a + b) s u := by
  induction a generalizing s with
  | zero => obtain rfl : s = t := h; simpa using h'
  | succ a ih =>
    obtain ⟨h1, h2, v, hv, hp⟩ := h
    rw [show a + 1 + b = a + b + 1 by omega]
    exact ⟨h1, h2, v, hv, ih hp⟩

theorem Path.one {s t : State} (h1 : s.phase ≠ .idle) (h2 : s.phase ≠ .respond) (h : seqStep s = .next t) :
    Path 1 s t := ⟨h1, h2, t, h, rfl⟩

theorem Path.cons {n : Nat} {s t u : State} (h1 : s.phase ≠ .idle) (h2 : s.phase ≠ .respond)
    (h : seqStep s = .next t) (hp : Path n t u) : Path (n + 1) s u := ⟨h1, h2, t, h, hp⟩

theorem Path.runToRespond {n : Nat} {s t : State} (h : Path n s t) (m : Nat) :
    Machine.runToRespond (n + m) s = Machine.runToRespond m t := by
  induction n generalizing s with
  | zero => obtain rfl : s = t := h; simp
  | succ n ih =>
    obtain ⟨-, h2, v, hv, hp⟩ := h
    rw [show n + 1 + m = n + m + 1 by omega, runToRespond_step _ h2 hv, ih hp]

/-- The schedule of a key as the register file KS. -/
def scheduleVector (k : Block) : Vector Subkey 16 := ⟨(keySchedule k).toArray, by simp⟩

theorem scheduleVector_toList (k : Block) : (scheduleVector k).toList = keySchedule k := rfl

/-- KS with the first `n` subkeys of the key written over `ks`. -/
def subkeysWritten (k : Block) (ks : Vector Subkey 16) (n : Nat) : Vector Subkey 16 :=
  Vector.ofFn fun i => if i.val < n then (scheduleVector k)[i] else ks[i]

/-- The state after `n` key-schedule rounds, before round `n + 1`. -/
def keysAt (s : State) (n : Nat) : State :=
  { s with
    c := (halvesAfter s.keyreg n).1
    d := (halvesAfter s.keyreg n).2
    rnd := BitVec.ofNat 5 (n + 1)
    ks := subkeysWritten s.keyreg s.ks n
    phase := .ksRound }

/-- The registers after the whole key schedule, `RND` still 16. -/
def keysDone (s : State) : State :=
  { s with
    c := (halvesAfter s.keyreg 16).1
    d := (halvesAfter s.keyreg 16).2
    rnd := 16#5
    ks := scheduleVector s.keyreg
    phase := .ksRound }

theorem subkeysWritten_succ (k : Block) (ks : Vector Subkey 16) (n : Nat) (h : n < 16) :
    (subkeysWritten k ks n).setIfInBounds n (compress (halvesAfter k (n + 1)).1 (halvesAfter k (n + 1)).2) =
      subkeysWritten k ks (n + 1) := by
  apply Vector.ext
  intro i hi
  have hk := keySchedule_getElem? k n h
  rw [Vector.getElem_setIfInBounds]
  by_cases e : n = i
  · subst e
    have : (scheduleVector k)[n] = (keySchedule k)[n]'(by simpa using h) := by simp [scheduleVector]
    rw [List.getElem?_eq_getElem (by simpa using h), Option.some.injEq] at hk
    simp [subkeysWritten, this, hk]
  · have : i ≤ n ↔ i < n := by omega
    simp [subkeysWritten, e, this]

theorem subkeysWritten_all (k : Block) (ks : Vector Subkey 16) : subkeysWritten k ks 16 = scheduleVector k := by
  apply Vector.ext
  intro i hi
  simp [subkeysWritten]

theorem seqStep_keysAt (s : State) (n : Nat) (h : n < 16) :
    seqStep (keysAt s n) = .next (afterKsRound { keysAt s (n + 1) with rnd := BitVec.ofNat 5 (n + 1) }) := by
  have hr : (keysAt s n).rnd.toNat = n + 1 := by simp [keysAt]; omega
  obtain ⟨k, hk, hs⟩ := stepKsRound_eq (s := keysAt s n) (by omega) (by omega)
  rw [seqStep_ksRound rfl, hs]
  rw [hr, Nat.add_sub_cancel] at hk
  have hh := halvesAfter_succ s.keyreg n k hk
  congr 2
  have hw := subkeysWritten_succ s.keyreg s.ks n h
  simp only [hh] at hw
  unfold rotateAndStore
  rw [hr]
  simp only [keysAt, hh, Nat.add_sub_cancel, hw]

theorem seqStep_keysAt_next (s : State) (n : Nat) (h : n < 15) : seqStep (keysAt s n) = .next (keysAt s (n + 1)) := by
  rw [seqStep_keysAt s n (by omega), afterKsRound]
  have : (BitVec.ofNat 5 (n + 1)).toNat = n + 1 := by simp; omega
  simp only [this, show n + 1 < 16 by omega, if_true, keysAt]
  rw [← BitVec.ofNat_add]

theorem seqStep_keysAt_last (s : State) : seqStep (keysAt s 15) = .next (afterKsRound (keysDone s)) := by
  rw [seqStep_keysAt s 15 (by omega)]
  simp [keysAt, keysDone, subkeysWritten_all]

theorem path_keysAt (s : State) (n : Nat) (h : n ≤ 15) : Path (16 - n) (keysAt s n) (afterKsRound (keysDone s)) := by
  induction hn : 15 - n generalizing n with
  | zero =>
    obtain rfl : n = 15 := by omega
    exact Path.one (by simp [keysAt]) (by simp [keysAt]) (seqStep_keysAt_last s)
  | succ m ih =>
    rw [show 16 - n = 16 - (n + 1) + 1 by omega]
    exact Path.cons (by simp [keysAt]) (by simp [keysAt]) (seqStep_keysAt_next s n (by omega))
      (ih (n + 1) (by omega) (by omega))

/-- The key schedule: KS_PC1 and sixteen KS_ROUND transitions (40_key_schedule.md R114, R116). -/
theorem path_keySchedule {s : State} (h : s.phase = .ksPc1) : Path 17 s (afterKsRound (keysDone s)) := by
  refine Path.cons (by simp [h]) (by simp [h]) (seqStep_ksPc1 h) ?_
  have : stepKsPc1 s = keysAt s 0 := by
    simp only [stepKsPc1, keysAt, halvesAfter_zero]
    congr 1
    apply Vector.ext
    intro i hi
    simp [subkeysWritten]
  rw [this]
  exact path_keysAt s 0 (by omega)

/-- The state in ROUND after `n` rounds on the block in BLKIN. -/
def roundsAt (s : State) (n : Nat) : State :=
  { s with
    l := (rounds (s.ks.toList.take n) (initialHalves s.blkin)).1
    r := (rounds (s.ks.toList.take n) (initialHalves s.blkin)).2
    rnd := BitVec.ofNat 5 (n + 1)
    phase := .round }

theorem feistel_roundsAt (s : State) (n : Nat) (h : n < 16) :
    seqStep (roundsAt s n) = .next { roundsAt s (n + 1) with
      rnd := if n + 1 < 16 then BitVec.ofNat 5 (n + 2) else BitVec.ofNat 5 (n + 1)
      phase := if n + 1 < 16 then .round else .swap } := by
  have hr : (roundsAt s n).rnd.toNat = n + 1 := by simp [roundsAt]; omega
  have hs := stepRound_eq (s := roundsAt s n) (by omega) (by omega)
  rw [seqStep_round rfl, hs]
  have e := rounds_take_succ s.ks.toList n (initialHalves s.blkin) (by simpa using h)
  have hk : (roundsAt s n).ks[(roundsAt s n).rnd.toNat - 1]'(by omega) = s.ks.toList[n]'(by simpa using h) := by
    simp only [Vector.getElem_toList]
    congr 1
    omega
  rw [hk]
  congr 1
  unfold feistel
  rw [hr]
  simp only [roundsAt, e]
  congr 1
  split <;> simp [← BitVec.ofNat_add]

theorem path_rounds (s : State) (n : Nat) (h : n ≤ 15) :
    Path (16 - n) (roundsAt s n) { roundsAt s 16 with rnd := 16#5, phase := .swap } := by
  induction hn : 15 - n generalizing n with
  | zero =>
    obtain rfl : n = 15 := by omega
    refine Path.one (by simp [roundsAt]) (by simp [roundsAt]) ?_
    rw [feistel_roundsAt s 15 (by omega)]
    simp
  | succ m ih =>
    rw [show 16 - n = 16 - (n + 1) + 1 by omega]
    refine Path.cons (by simp [roundsAt]) (by simp [roundsAt]) ?_ (ih (n + 1) (by omega) (by omega))
    rw [feistel_roundsAt s n (by omega), if_pos (by omega), if_pos (by omega)]
    rfl

/-- What BLK_LOAD to FP leave for block `b`, in phase BLK_STORE. -/
def blockDone (b : Block) (s : State) : State :=
  { s with
    blkin := b
    l := (rounds s.ks.toList (initialHalves b)).1
    r := (rounds s.ks.toList (initialHalves b)).2
    rnd := 16#5
    preout := (rounds s.ks.toList (initialHalves b)).2 ++ (rounds s.ks.toList (initialHalves b)).1
    blkout := desEnc b s.ks.toList
    phase := .blkStore }

/-- One block: BLK_LOAD, IP, sixteen ROUND, SWAP, FP and BLK_STORE (42_block_transform.md R176, R181). -/
theorem path_block {s : State} (h : s.phase = .blkLoad) (hb : s.blk < s.nblk) :
    Path 21 s (stepBlkStore (blockDone (blockInput s) s)) := by
  have h1 : seqStep s = .next { s with blkin := blockInput s, phase := .ip } := by
    rw [seqStep_blkLoad h, stepBlkLoad, if_pos hb]; rfl
  refine Path.cons (by simp [h]) (by simp [h]) h1 ?_
  refine Path.cons (by simp) (by simp) (seqStep_ip rfl) ?_
  have e : stepIp { s with blkin := blockInput s, phase := .ip } = roundsAt { s with blkin := blockInput s } 0 := rfl
  rw [e]
  refine (path_rounds _ 0 (by omega)).trans (b := 3) ?_
  have ht : s.ks.toList.take 16 = s.ks.toList := List.take_of_length_le (by simp)
  refine Path.cons (by simp) (by simp) (seqStep_swap rfl) ?_
  refine Path.cons (by simp [stepSwap]) (by simp [stepSwap]) (seqStep_fp rfl) ?_
  refine Path.cons (by simp [stepFp]) (by simp [stepFp]) (seqStep_blkStore rfl) ?_
  simp only [Path, stepFp, stepSwap, roundsAt, blockDone, ht]
  rfl

/-- BLK_STORE after the last block completes the command (43_mode_controller.md R206). -/
theorem blkStore_last (b : Block) {s : State} (h : ¬ s.blk + 1 < s.nblk) :
    stepBlkStore (blockDone b s) = complete { blockDone b s with
      outbuf := s.outbuf ++ toBits (desEnc b s.ks.toList)
      chain := if chains s then desEnc b s.ks.toList else s.chain } := if_neg h

/-- BLK_STORE before the last block goes on to the next one (R206). -/
theorem blkStore_more (b : Block) {s : State} (h : s.blk + 1 < s.nblk) :
    stepBlkStore (blockDone b s) = { blockDone b s with
      outbuf := s.outbuf ++ toBits (desEnc b s.ks.toList)
      chain := if chains s then desEnc b s.ks.toList else s.chain
      blk := s.blk + 1
      phase := .blkLoad } := if_pos h

/-- What the blocks of a command leave alone. -/
def BlocksKeep (s t : State) : Prop :=
  t.params = s.params ∧ t.grain = s.grain ∧ t.cmdreg = s.cmdreg ∧ t.keyop = s.keyop ∧ t.ivop = s.ivop ∧
  t.dataop = s.dataop ∧ t.keyreg = s.keyreg ∧ t.ivreg = s.ivreg ∧ t.c = s.c ∧ t.d = s.d ∧ t.ks = s.ks ∧
  t.nblk = s.nblk ∧ t.rx = s.rx ∧ t.host = s.host ∧ t.taken = s.taken

/-- What the last block `b` of a command leaves in the block registers. -/
def LastBlock (b : Block) (t : State) : Prop :=
  t.blkin = b ∧ (t.l, t.r) = rounds t.ks.toList (initialHalves b) ∧ t.preout = t.r ++ t.l ∧
  t.blkout = desEnc b t.ks.toList ∧ t.rnd = 16#5

/-- A run over the blocks `bs`, of which `BLK` are done: the ciphertext of the others is appended in order, CHAIN
follows for ENCRYPT_CBC, and the command completes (43_mode_controller.md R204, R206, R209, R210). -/
theorem path_blocks (bs : List Block) (v : Block) (n : Nat) (s : State) (hp : s.phase = .blkLoad)
    (hn : s.blk + n + 1 = s.nblk) (hl : bs.length = s.nblk)
    (hbs : ∀ j, j < s.nblk → bs[j]? = some (blockAt s.dataop j))
    (hc : chains s = true → s.chain = chainBefore s.ks.toList v bs s.blk) :
    ∃ t, Path (21 * (n + 1)) s t ∧ t.phase = .respond ∧ t.status = statusOk ∧ t.diag = 0#8 ∧
      t.outbuf = s.outbuf ++ blockBits
        ((if chains s then cbcBlocks s.ks.toList v bs else ecbBlocks s.ks.toList bs).drop s.blk) ∧
      t.blk + 1 = s.nblk ∧ BlocksKeep s t ∧
      LastBlock (if chains s then blockAt s.dataop t.blk ^^^ chainBefore s.ks.toList v bs t.blk
        else blockAt s.dataop t.blk) t ∧
      t.chain = if chains s then chainBefore s.ks.toList v bs s.nblk else s.chain := by
  have hlt : s.blk < s.nblk := by omega
  have hb := hbs _ hlt
  have hin : blockInput s = if chains s then blockAt s.dataop s.blk ^^^ chainBefore s.ks.toList v bs s.blk
      else blockAt s.dataop s.blk := by
    unfold blockInput
    split
    · rw [hc ‹_›]
    · rfl
  have hnext : chains s = true → desEnc (blockInput s) s.ks.toList = chainBefore s.ks.toList v bs (s.blk + 1) := by
    intro h
    rw [chainBefore_succ _ _ _ _ _ hb, hin, if_pos h]
  have hhead : (if chains s then cbcBlocks s.ks.toList v bs else ecbBlocks s.ks.toList bs).drop s.blk =
      desEnc (blockInput s) s.ks.toList ::
        (if chains s then cbcBlocks s.ks.toList v bs else ecbBlocks s.ks.toList bs).drop (s.blk + 1) := by
    have hlen : s.blk < (if chains s then cbcBlocks s.ks.toList v bs else ecbBlocks s.ks.toList bs).length := by
      split <;> simp <;> omega
    rw [List.drop_eq_getElem_cons hlen]
    congr 1
    have := List.getElem?_eq_getElem hlen
    rw [← Option.some.injEq, ← this, hin]
    split
    · rw [cbcBlocks_getElem?, hb]; rfl
    · simp [ecbBlocks, hb]
  have h1 := path_block hp hlt
  cases n with
  | zero =>
    have hlast : ¬ (s.blk + 1 < s.nblk) := by omega
    have ht : stepBlkStore (blockDone (blockInput s) s) = complete { blockDone (blockInput s) s with
        outbuf := s.outbuf ++ toBits (desEnc (blockInput s) s.ks.toList)
        chain := if chains s then desEnc (blockInput s) s.ks.toList else s.chain } := by
      exact blkStore_last _ hlast
    rw [ht] at h1
    refine ⟨_, h1, rfl, rfl, rfl, ?_, hn, ⟨rfl, rfl, rfl, rfl, rfl, rfl, rfl, rfl, rfl, rfl, rfl, rfl, rfl, rfl, rfl⟩,
      ?_, ?_⟩
    · rw [hhead]
      have hd : (if chains s then cbcBlocks s.ks.toList v bs else ecbBlocks s.ks.toList bs).drop (s.blk + 1) = [] :=
        List.drop_eq_nil_of_le (by split <;> simp <;> omega)
      rw [hd]
      simp [blockBits]
    · rw [show (complete { blockDone (blockInput s) s with
        outbuf := s.outbuf ++ toBits (desEnc (blockInput s) s.ks.toList)
        chain := if chains s then desEnc (blockInput s) s.ks.toList else s.chain }).blk = s.blk from rfl, ← hin]
      exact ⟨rfl, rfl, rfl, rfl, rfl⟩
    · simp only [complete_chain]
      split
      · rw [hnext ‹_›, show s.blk + 1 = s.nblk by omega]
      · rfl
  | succ n =>
    have hmore : s.blk + 1 < s.nblk := by omega
    obtain ⟨u, hu⟩ : ∃ u, u = stepBlkStore (blockDone (blockInput s) s) := ⟨_, rfl⟩
    have hu' : u = { blockDone (blockInput s) s with
        outbuf := s.outbuf ++ toBits (desEnc (blockInput s) s.ks.toList)
        chain := if chains s then desEnc (blockInput s) s.ks.toList else s.chain
        blk := s.blk + 1
        phase := .blkLoad } := by
      rw [hu]
      exact blkStore_more _ hmore
    rw [← hu] at h1
    have hcu : chains u = chains s := by rw [hu']; rfl
    have hks : u.ks = s.ks := by rw [hu']; rfl
    have hnb : u.nblk = s.nblk := by rw [hu']; rfl
    have hbk : u.blk = s.blk + 1 := by rw [hu']
    have hdo : u.dataop = s.dataop := by rw [hu']; rfl
    have hout : u.outbuf = s.outbuf ++ toBits (desEnc (blockInput s) s.ks.toList) := by rw [hu']
    have hchn : u.chain = if chains s then desEnc (blockInput s) s.ks.toList else s.chain := by rw [hu']
    obtain ⟨t, hpt, a1, a2, a3, a4, a5, a6, a7, a8⟩ := path_blocks bs v n u (by rw [hu']) (by omega) (by omega)
      (by rw [hnb, hdo]; exact hbs) (by
        intro h
        rw [hcu] at h
        rw [hchn, if_pos h, hks, hbk, hnext h])
    refine ⟨t, ?_, a1, a2, a3, ?_, by omega, ?_, ?_, ?_⟩
    · rw [show 21 * (n + 1 + 1) = 21 + 21 * (n + 1) by omega]
      exact h1.trans hpt
    · rw [a4, hout, hcu, hks, hbk, hhead]
      simp [blockBits]
    · have hk : BlocksKeep s u := by rw [hu']; exact ⟨rfl, rfl, rfl, rfl, rfl, rfl, rfl, rfl, rfl, rfl, rfl, rfl, rfl, rfl, rfl⟩
      unfold BlocksKeep at *
      simp_all
    · rw [hcu, hks, hdo] at a7
      exact a7
    · rw [a8, hcu, hks, hnb, hchn]
      split <;> rfl

end Sys2Proof.Machine
end

