-- ==== Sys2Proof/Laws/Commands.lean ====
section
/-! SUPPORT. A command from accept to RESPOND: what DECODE chooses, what the datapath leaves, and that the response is
`Exec` of the command after the step count of 70_reset_and_hazards.md R271. -/

namespace Sys2Proof.Machine

open Sys2Proof.Config

/-- DECODE goes to RESPOND exactly where a check fails. -/
theorem stepDecode_phase (s : State) : (stepDecode s).phase = if (firstError s.params s.cmdreg s.keyop s.ivop s.dataop).isSome then .respond else .ksPc1 := by
  unfold stepDecode
  cases ho : opcodeOf s.cmdreg with
  | none => simp [firstError_illegal ho, decodeIllegal]
  | some op =>
    cases op with
    | deriveKeys => rw [firstError_deriveKeys ho]; simp only [decodeDeriveKeys]; split <;> simp
    | encryptBlock => rw [firstError_encryptBlock ho]; simp only [decodeEncryptBlock]; split; · simp
                      split <;> simp
    | encryptEcb => rw [firstError_encryptEcb ho]; simp only [decodeEncryptEcb]; split; · simp
                    split <;> simp
    | encryptCbc => rw [firstError_encryptCbc ho]; simp only [decodeEncryptCbc]; split; · simp
                    split; · simp
                    split <;> simp

/-- After the last key-schedule round of DERIVE_KEYS. -/
theorem afterKsRound_derive {s : State} (h : ¬ s.rnd.toNat < 16) (hop : s.op = some .deriveKeys) :
    afterKsRound s = complete { s with outbuf := subkeyBits s.ks.toList } := by
  have hop : opcodeOf s.cmdreg = some .deriveKeys := hop
  rw [afterKsRound, if_neg h, if_pos hop]

/-- After the last key-schedule round of a command with no block. -/
theorem afterKsRound_none {s : State} (h : ¬ s.rnd.toNat < 16) (hop : ¬ s.op = some .deriveKeys) (hn : s.nblk = 0) :
    afterKsRound s = complete { s with outbuf := [] } := by
  have hop : ¬ opcodeOf s.cmdreg = some .deriveKeys := hop
  rw [afterKsRound, if_neg h, if_neg hop, if_pos hn]

/-- After the last key-schedule round of a command with blocks. -/
theorem afterKsRound_more {s : State} (h : ¬ s.rnd.toNat < 16) (hop : ¬ s.op = some .deriveKeys) (hn : ¬ s.nblk = 0) :
    afterKsRound s = { s with phase := .blkLoad } := by
  have hop : ¬ opcodeOf s.cmdreg = some .deriveKeys := hop
  rw [afterKsRound, if_neg h, if_neg hop, if_neg hn]

/-- The plaintext blocks of a command are the segments of its data. -/
theorem latchedPlain_getElem? {s : State} (hd : Decoded s) (j : Nat) (h : j < s.nblk) : (latchedPlain s)[j]? = some (blockAt s.dataop j) :=
  latchedPlain_blk (s := { s with blk := j }) hd h

/-- The ciphertext blocks of a command, by whether it chains. -/
theorem latchedCipher_eq {s : State} (hd : Decoded s) (hop : s.op ≠ some .deriveKeys) :
    latchedCipher s = if chains s then cbcBlocks (keySchedule s.keyreg) s.ivreg (latchedPlain s) else ecbBlocks (keySchedule s.keyreg) (latchedPlain s) := by
  unfold latchedCipher chains
  have ho : s.op = opcodeOf s.cmdreg := rfl
  rcases firstError_none hd.1 with h | h | h | h
  · exact absurd h.1 hop
  all_goals simp [ho, h.1, cipherBlocks]

/-- What the datapath leaves alone from KS_PC1 on. -/
def Kept (w t : State) : Prop :=
  t.params = w.params ∧ t.grain = w.grain ∧ t.cmdreg = w.cmdreg ∧ t.keyop = w.keyop ∧ t.ivop = w.ivop ∧
  t.dataop = w.dataop ∧ t.keyreg = w.keyreg ∧ t.ivreg = w.ivreg ∧ t.nblk = w.nblk ∧ t.rx = w.rx ∧ t.host = w.host ∧ t.taken = w.taken

/-- Everything that the datapath of a command does, from KS_PC1 to RESPOND. -/
theorem datapath {w : State} (hp : w.phase = .ksPc1) (hk : KeyStage w) :
   ∃ t, Path (17 + 21 * w.nblk) w t ∧ t.phase = .respond ∧ t.status = 0#8 ∧ t.diag = 0#8 ∧
   t.outbuf = (if w.op = some .deriveKeys then subkeyBits (keySchedule w.keyreg) else blockBits (latchedCipher w)) ∧
   Kept w t ∧ (t.c, t.d) = halvesAfter w.keyreg 16 ∧ t.ks.toList = keySchedule w.keyreg ∧ t.rnd = 16#5 ∧
   (w.nblk = 0 → t.blk = w.blk ∧ t.blkin = w.blkin ∧ t.l = w.l ∧ t.r = w.r ∧ t.preout = w.preout ∧ t.blkout = w.blkout ∧ t.chain = w.chain) ∧
   (0 < w.nblk → t.blk = w.nblk - 1 ∧
     LastBlock (if chains w then blockAt w.dataop t.blk ^^^ chainBefore (keySchedule w.keyreg) w.ivreg (latchedPlain w) t.blk
        else blockAt w.dataop t.blk) t ∧ 
     t.chain = if chains w then chainBefore (keySchedule w.keyreg) w.ivreg (latchedPlain w) w.nblk else w.chain) := by
  have h17 := path_keySchedule hp
  obtain ⟨hd, hout, hblk, hch⟩ := hk
  by_cases hop : w.op = some .deriveKeys
  · have hn : w.nblk = 0 := by rw [hd.2.2.2]; simp [latchedPlain, hop, plainBlocks]
    have e : afterKsRound (keysDone w) = complete { keysDone w with outbuf := subkeyBits (keysDone w).ks.toList } := afterKsRound_derive (s := keysDone w) (by simp [keysDone]) hop
    rw [e] at h17
    rw [show 17 + 21 * w.nblk = 17 by omega]
    refine ⟨_, h17, rfl, rfl, rfl, by rw [if_pos hop]; rfl, ⟨rfl, rfl, rfl, rfl, rfl, rfl, rfl, rfl, rfl, rfl, rfl, rfl⟩,
      rfl, rfl, rfl, fun _ => ⟨rfl, rfl, rfl, rfl, rfl, rfl, rfl⟩, fun h => by omega⟩
  · by_cases hn : w.nblk = 0
    · have e : afterKsRound (keysDone w) = complete { keysDone w with outbuf := [] } := afterKsRound_none (s := keysDone w) (by simp [keysDone]) hop hn
      rw [e] at h17
      have hl : latchedCipher w = [] := by
        apply List.eq_nil_of_length_eq_zero
        rw [latchedCipher_length, ← hd.2.2.2, hn]
      rw [show 17 + 21 * w.nblk = 17 by omega]
      refine ⟨_, h17, rfl, rfl, rfl, by rw [if_neg hop, hl]; rfl, ⟨rfl, rfl, rfl, rfl, rfl, rfl, rfl, rfl, rfl, rfl, rfl, rfl⟩,
        rfl, rfl, rfl, fun _ => ⟨rfl, rfl, rfl, rfl, rfl, rfl, rfl⟩, fun h => by omega⟩
    · have e : afterKsRound (keysDone w) = { keysDone w with phase := .blkLoad } := afterKsRound_more (s := keysDone w) (by simp [keysDone]) hop hn
      rw [e] at h17
      have hb0 : w.blk = 0 := hblk hop
      obtain ⟨t, hpt, a1, a2, a3, a4, a5, a6, a7, a8⟩ := path_blocks (latchedPlain w) w.ivreg (w.nblk - 1) { keysDone w with phase := .blkLoad } rfl
        (by show w.blk + _ + 1 = w.nblk; omega) hd.2.2.2.symm (fun j hj => latchedPlain_getElem? hd j hj)
        (by intro hc
            show w.chain = chainBefore _ _ _ w.blk
            rw [hb0, chainBefore]
            exact hch (of_decide_eq_true hc))
      have hks : ({ keysDone w with phase := .blkLoad } : State).ks.toList = keySchedule w.keyreg := rfl
      have hcc : chains { keysDone w with phase := .blkLoad } = chains w := rfl
      rw [hks, hcc] at a4 a7 a8
      obtain ⟨k1, k2, k3, k4, k5, k6, k7, k8, k9, k10, k11, k12, k13, k14, k15⟩ := a6
      have ab : t.blk + 1 = w.nblk := a5
      refine ⟨t, ?_, a1, a2, a3, ?_, ⟨k1, k2, k3, k4, k5, k6, k7, k8, k12, k13, k14, k15⟩, ?_, ?_, a7.2.2.2.2, fun h => absurd h hn, fun _ => ⟨by omega, a7, a8⟩⟩
      · have := h17.trans hpt
        rwa [show w.nblk - 1 + 1 = w.nblk by omega] at this
      · rw [a4, if_neg hop, latchedCipher_eq hd hop]
        show w.outbuf ++ blockBits (List.drop w.blk _) = _
        rw [hout, hb0]; simp
      · rw [k9, k10]; rfl
      · rw [k11]; rfl

/-- A run of the datapath is what `finishCommand` answers. -/
theorem finishCommand_path {w t : State} (h : Path (17 + 21 * w.nblk) w t) : finishCommand w = .next t := by
  have := h.runToRespond 0
  simpa [finishCommand, datapathSteps, runToRespond] using this

/-- A command that DECODE ended is finished. -/
theorem finishCommand_respond {w : State} (h : w.phase = .respond) : finishCommand w = .next w := runToRespond_respond _ h

/-- A run keeps what the phases rely on. -/
theorem Path.inv {n : Nat} {s t : State} (h : Path n s t) (hi : PhaseInv s) : PhaseInv t := by
  induction n generalizing s with
  | zero => obtain rfl : s = t := h; exact hi
  | succ n ih =>
    obtain ⟨-, -, v, hv, hp⟩ := h
    obtain ⟨v', hv', hi'⟩ := phaseInv_seqStep hi
    rw [hv] at hv'; cases hv'
    exact ih hp hi'

/-- A run leaves the host's side and the latched command alone. -/
theorem Path.keeps {n : Nat} {s t : State} (h : Path n s t) : SideKept s t ∧ LatchKept s t := by
  induction n generalizing s with
  | zero => obtain rfl : s = t := h; exact ⟨⟨rfl, rfl, rfl, rfl⟩, rfl, rfl, rfl, rfl, rfl⟩
  | succ n ih =>
    obtain ⟨h1, -, v, hv, hp⟩ := h
    have k := seqStep_keeps hv
    have k1 := k.1
    have k2 := k.2.1 h1
    have := ih hp
    unfold SideKept LatchKept at *
    simp_all

/-- A failing check ends the command. -/
theorem stepDecode_error {u : State} {e : CmdError} (h : firstError u.params u.cmdreg u.keyop u.ivop u.dataop = some e) : (stepDecode u).phase = .respond := by
  rw [stepDecode_phase, h]; rfl

/-- A command from DECODE on: its response, its step count less accept, decode and take, and what it leaves alone. -/
theorem command_path (u : State) : ∃ n t, n + 3 = stepCount u.params u.cmdreg u.keyop u.ivop u.dataop ∧ Path n (stepDecode u) t ∧
    t.phase = .respond ∧ t.response = execRef u.params u.cmdreg u.keyop u.ivop u.dataop ∧ SideKept u t ∧ LatchKept u t ∧ finishCommand (stepDecode u) = .next t := by
  have hi := phaseInv_stepDecode u
  have hk := stepDecode_keeps u
  have resp : ∀ {n t}, Path n (stepDecode u) t → t.phase = .respond → t.response = execRef u.params u.cmdreg u.keyop u.ivop u.dataop ∧ SideKept u t ∧ LatchKept u t := by
    intro n t hp hr
    have hit := hp.inv hi
    have k := hp.keeps
    have := hit.2.2.2.2.2.2.2.2 hr
    have k1 := hk.1; have k2 := hk.2.1
    unfold SideKept LatchKept at *
    refine ⟨?_, ?_, ?_⟩
    · rw [this]; simp_all
    · simp_all
    · simp_all
  cases he : firstError u.params u.cmdreg u.keyop u.ivop u.dataop with
  | some e =>
    have hr := stepDecode_error he
    have r := resp (n := 0) (t := stepDecode u) rfl hr
    exact ⟨0, _, by simp [stepCount, he], rfl, hr, r.1, r.2.1, r.2.2, finishCommand_respond hr⟩
  | none =>
    have hp : (stepDecode u).phase = .ksPc1 := by rw [stepDecode_phase, he]; rfl
    have hks := hi.1 hp
    obtain ⟨t, hpt, h1, -⟩ := datapath hp hks
    have r := resp hpt h1
    refine ⟨_, t, ?_, hpt, h1, r.1, r.2.1, r.2.2, finishCommand_path hpt⟩
    have hn := hks.1.2.2.2
    rw [hn]
    simp only [latchedPlain, State.op, hk.2.1.1, hk.1.1, hk.2.1.2.2.2.1]
    rcases firstError_none he with h | h | h | h <;> simp only [stepCount, he, h.1] <;> omega

/-- The meaning of a decoded command is DECODE and the datapath. -/
theorem exec_commandOf (c : Byte) (k v d : Bits) {s : State} (h : s.phase = .idle) :
    exec (commandOf c k v d) s = finishCommand (stepDecode (accept c k v d s)) := by
  rcases opcodeOf_cases c with ⟨rfl, ho⟩ | ⟨rfl, ho⟩ | ⟨rfl, ho⟩ | ⟨rfl, ho⟩ | ⟨_, ho⟩ <;>
    simp [commandOf, ho, exec, execDeriveKeys, execEncryptBlock, execEncryptEcb, execEncryptCbc, execIllegal, h, stepDecode]

end Sys2Proof.Machine
end

