-- ==== Sys2Proof/Laws/PerInstr.lean ====
section
/-! SUPPORT. A statement about every command as syntax: the packet it encodes to begins with its command byte and
has the length of 30_encoding.md R80. -/

namespace Sys2Proof.Laws.PacketShape

open Sys2Proof.Machine

/-- The first byte and the length of a command's packet (R80). -/
def Statement (i : Instr) : Prop := (encode i).head? = some i.cmdByte ∧ (encode i).length = packetLength i

theorem encode_shape (i : Instr) : Statement i := by
  refine ⟨rfl, ?_⟩
  simp only [encode, encodeOperand, packetLength, List.length_cons, List.length_append, be32_length,
    packBits_length]
  omega

theorem deriveKeys (key iv data : Bits) : Statement (.deriveKeys key iv data) := encode_shape _

theorem encryptBlock (key iv data : Bits) : Statement (.encryptBlock key iv data) := encode_shape _

theorem encryptEcb (key iv data : Bits) : Statement (.encryptEcb key iv data) := encode_shape _

theorem encryptCbc (key iv data : Bits) : Statement (.encryptCbc key iv data) := encode_shape _

theorem illegal (cmd : Byte) (key iv data : Bits) : Statement (.illegal cmd key iv data) := encode_shape _

end Sys2Proof.Laws.PacketShape
end

