-- ==== Sys2Proof/Laws/Step.lean ====
section
/-! SUPPORT. One step of the machine: the host's move, then a whole command or one transition; and runs of steps. -/

namespace Sys2Proof.Machine

/-- With no host move the core moves. -/
theorem turn_nil {s : State} (h : s.host = []) : turn s = .core s := by simp [turn, h]

/-- A core that is not idle fetches nothing. -/
theorem fetch_none_of_phase {s : State} (h : s.phase ≠ .idle) : fetch s = none := by simp [fetch, h]

/-- At the grain of transitions no whole command is fetched. -/
theorem fetch_none_of_grain {s : State} (h : s.grain = .phase) : fetch s = none := by simp [fetch, h]

/-- A step of a core that is not idle, with no host move. -/
theorem step_busy {s : State} (hh : s.host = []) (h : s.phase ≠ .idle) : step s = seqStep s := by
  simp [step, turn_nil hh, fetch_none_of_phase h]

/-- A step at the grain of transitions, with no host move. -/
theorem step_phase {s : State} (hh : s.host = []) (h : s.grain = .phase) : step s = seqStep s := by
  simp [step, turn_nil hh, fetch_none_of_grain h]

/-- What the host can change before the core moves. -/
theorem turn_core_eq {s t : State} (h : turn s = .core t) : (∃ h', t = { s with host := h' }) ∨ (s.phase = .idle ∧ ∃ h' bs, t = { s with host := h', rx := s.rx ++ bs}) := by
  unfold turn at h
  split at h
  · left; cases h; exact ⟨s.host, rfl⟩
  · cases h; exact .inl ⟨_, rfl⟩
  · cases h
  · split at h
    · cases h; exact .inr ⟨‹_›, _, _, rfl⟩
    · cases h; exact .inl ⟨s.host, rfl⟩
  · split at h
    · cases h
    · cases h; exact .inl ⟨s.host, rfl⟩

/-- Everything that a step which does not stop can be. -/
theorem step_cases {s t : State} (h : step s = .next t) :
    (∃ h', s.host = .reset :: h' ∧ t = resetEvent { s with host := h' }) ∨
    (∃ h', s.host = .take :: h' ∧ s.phase = .respond ∧ t = takeResponse { s with host := h' }) ∨
    (∃ u i v, turn s = .core u ∧ fetch u = some (i, v) ∧ exec i v = .next t) ∨
    (∃ u, turn s = .core u ∧ fetch u = none ∧ seqStep u = .next t) := by
  unfold step at h
  split at h
  · rename_i u hu
    left
    unfold turn at hu
    split at hu <;> try cases hu
    · exact ⟨_, ‹_›, (Host.Outcome.next.inj h).symm⟩
    · split at hu <;> cases hu
    · split at hu <;> cases hu
  · rename_i u hu
    right; left
    unfold turn at hu
    split at hu <;> try cases hu
    · split at hu <;> cases hu
    · split at hu <;> cases hu
      exact ⟨_, ‹_›, ‹_›, (Host.Outcome.next.inj h).symm⟩
  · rename_i u hu
    split at h
    · rename_i i v hf
      exact .inr (.inr (.inl ⟨u, i, v, hu, hf, h⟩))
    · exact .inr (.inr (.inr ⟨u, hu, ‹_›, h⟩))

/-- What a fetched command is. -/
theorem fetch_eq {u v : State} {i : Instr} (h : fetch u = some (i, v)) : u.phase = .idle ∧ u.grain = .command ∧ ∃ rest, decode u.rx = .ok (i, rest) ∧ v = { u with rx := rest } := by
  unfold fetch at h
  split at h
  · split at h
    · cases h; exact ⟨by simp_all, by simp_all, _, ‹_›, rfl⟩
    · cases h
  · cases h

/-- A whole command leaves the parameters, the grain and the host's side alone. -/
theorem finishCommand_side {s t : State} (h : finishCommand s = .next t) : SideKept s t := runToRespond_sideKept _ h

/-- A meaning leaves the parameters, the grain and the host's side alone. -/
theorem exec_side {i : Instr} {s t : State} (h : exec i s = .next t) : SideKept s t := by
  have key : ∀ (f : State → State) (a : State), (∀ u, SideKept u (f u)) → SideKept s a → (if s.phase = .idle then finishCommand (f a) else .next s) = .next t → SideKept s t := by
    intro f a hf ha h
    split at h
    · have h1 := finishCommand_side h
      have h2 := hf a
      unfold SideKept at *; simp_all
    · cases h; exact ⟨rfl, rfl, rfl, rfl⟩
  cases i with
  | deriveKeys k v d => 
    refine key decodeDeriveKeys (accept 1#8 k v d s) ?_ ⟨rfl,rfl,rfl,rfl⟩ h
    intro u; unfold decodeDeriveKeys; split <;> simp [SideKept]
  | encryptBlock k v d =>
    refine key decodeEncryptBlock (accept 2#8 k v d s) ?_ ⟨rfl,rfl,rfl,rfl⟩ h
    intro u; unfold decodeEncryptBlock; repeat' split
    all_goals simp [SideKept]
  | encryptEcb k v d =>
    refine key decodeEncryptEcb (accept 3#8 k v d s) ?_ ⟨rfl,rfl,rfl,rfl⟩ h
    intro u; unfold decodeEncryptEcb; repeat' split
    all_goals simp [SideKept]
  | encryptCbc k v d =>
    refine key decodeEncryptCbc (accept 4#8 k v d s) ?_ ⟨rfl,rfl,rfl,rfl⟩ h
    intro u; unfold decodeEncryptCbc; repeat' split
    all_goals simp [SideKept]
  | illegal c k v d =>
    refine key decodeIllegal (accept c k v d s) ?_ ⟨rfl,rfl,rfl,rfl⟩ h
    intro u; simp [decodeIllegal, SideKept]

/-- A run of one more step. -/
theorem run_succ (n : Nat) {s t : State} (h : step s = .next t) : run (n + 1) s = run n t := by
  simp [run, h]

/-- A run of the sequencer is a run of the machine, at the grain of transitions with no host move. -/
theorem Path.runs {n : Nat} {s t : State} (h : Path n s t) (hg : s.grain = .phase) (hh : s.host = []) (m : Nat) :
    run (n + m) s = run m t := by
  induction n generalizing s with
  | zero => obtain rfl : s = t := h; simp
  | succ n ih =>
    obtain ⟨h1, -, v, hv, hp⟩ := h
    have k := (seqStep_keeps hv).1
    rw [show n + 1 + m = n + m + 1 by omega, run_succ (t := v) _ (by rw [step_phase hh hg, hv])]
    exact ih hp (by rw [k.2.1, hg]) (by rw [k.2.2.1, hh])

theorem hostRun_next (M : Host.Core) (n : Nat) {s t : M.State} (h : M.step s = .next t) :
    M.run (n + 1) s = M.run n t := by simp [Host.Core.run, h]

theorem hostRun_fault (M : Host.Core) (n : Nat) {s : M.State} {e : M.Fault} (h : M.step s = .fault e) :
    M.run (n + 1) s = .fault e := by simp [Host.Core.run, h]

theorem hostRun_refused (M : Host.Core) (n : Nat) {s : M.State} {e : M.Refusal} (h : M.step s = .refused e) :
    M.run (n + 1) s = .refused e := by simp [Host.Core.run, h]

/-- Runs of the machine are runs of the host's interface. -/
theorem core_run (n : Nat) (s : State) : Sys2Proof.core.run n s = run n s := by
  induction n generalizing s with
  | zero => rfl
  | succ n ih =>
    unfold run
    cases h : step s with
    | next t => exact (hostRun_next Sys2Proof.core n h).trans (ih t)
    | fault e => exact hostRun_fault Sys2Proof.core n h
    | refused e => exact hostRun_refused Sys2Proof.core n h

end Sys2Proof.Machine
end

