-- ==== Sys2Proof/Tests/Slice0.lean ====
section
/-! SUPPORT. The model's own tests, each on fixed values taken from the spec, and for every statement of
Obligations.lean with hypotheses a state and operands that meet them. -/

namespace Sys2Proof.Tests

set_option Elab.async false

open Sys2Proof.Machine Sys2Proof.Machine.Assembler Sys2Proof.Claims

/-! ### Values of 95_test_vectors.md -/

def k0 : Block := 0x133457799BBCDFF1#64
def p0 : Block := 0x0123456789ABCDEF#64
def k0Bytes : List Byte := [0x13#8, 0x34#8, 0x57#8, 0x79#8, 0x9B#8, 0xBC#8, 0xDF#8, 0xF1#8]
def p0Bytes : List Byte := [0x01#8, 0x23#8, 0x45#8, 0x67#8, 0x89#8, 0xAB#8, 0xCD#8, 0xEF#8]
def zeros : Bits := List.replicate 64 false

def nextOf : Host.Outcome State Fault Refusal → Option State
  | .next t => some t
  | _ => none

/-- The response packet that a command leaves on offer, as a number with its length in bytes. -/
def answer (i : Instr) (s : State) : Option (Nat × Nat) :=
  (nextOf (exec i s)).map fun t => (t.response.packet.length, beNat t.response.packet)

/-- The parameter value EMPTY_DATA_BLOCKS = 1. -/
def oneEmpty : State := { State.reset with params := { maxDataBits := 2 ^ 32 - 1, emptyDataBlocks := 1 } }

/-- The smallest legal MAX_DATA_BITS. -/
def smallest : State := { State.reset with params := { maxDataBits := 64, emptyDataBlocks := 0 } }

/-! ### WellFormed: one term for each check, refused -/

/-- An operand one bit longer than its length field can hold. -/
theorem tooLong_unfit : 2 ^ 32 ≤ (List.replicate (2 ^ 32) false).length := by
  rw [List.length_replicate]

theorem unfit_key {b : Bits} (h : 2 ^ 32 ≤ b.length) : (Instr.deriveKeys b [] []).wf = false := by
  simp [Instr.wf]; omega
theorem unfit_iv {b : Bits} (h : 2 ^ 32 ≤ b.length) : (Instr.encryptCbc [] b []).wf = false := by
  simp [Instr.wf]; omega
theorem unfit_data {b : Bits} (h : 2 ^ 32 ≤ b.length) : (Instr.encryptEcb [] [] b).wf = false := by
  simp [Instr.wf]; omega
theorem unfit_block {b : Bits} (h : 2 ^ 32 ≤ b.length) : (Instr.encryptBlock b [] []).wf = false := by
  simp [Instr.wf]; omega
theorem unfit_illegal {b : Bits} (h : 2 ^ 32 ≤ b.length) : (Instr.illegal 0x05#8 b [] []).wf = false ∧
    (Instr.illegal 0x05#8 [] b []).wf = false ∧ (Instr.illegal 0x05#8 [] [] b).wf = false := by
  simp [Instr.wf]; omega

theorem test_wf_key : (Instr.deriveKeys (List.replicate (2 ^ 32) false) [] []).wf = false := unfit_key tooLong_unfit
theorem test_wf_iv : (Instr.encryptCbc [] (List.replicate (2 ^ 32) false) []).wf = false := unfit_iv tooLong_unfit
theorem test_wf_data : (Instr.encryptEcb [] [] (List.replicate (2 ^ 32) false)).wf = false := unfit_data tooLong_unfit
theorem test_wf_block : (Instr.encryptBlock (List.replicate (2 ^ 32) false) [] []).wf = false :=
  unfit_block tooLong_unfit
theorem test_wf_illegal_byte : ∀ c ∈ assignedBytes, (Instr.illegal c [] [] []).wf = false := by decide
theorem test_wf_illegal : (Instr.illegal 0x05#8 (List.replicate (2 ^ 32) false) [] []).wf = false ∧
    (Instr.illegal 0x05#8 [] (List.replicate (2 ^ 32) false) []).wf = false ∧
    (Instr.illegal 0x05#8 [] [] (List.replicate (2 ^ 32) false)).wf = false := unfit_illegal tooLong_unfit
theorem test_wf_params : ¬ Config.Params.wf { maxDataBits := 63, emptyDataBlocks := 0 } ∧
    ¬ Config.Params.wf { maxDataBits := 2 ^ 32, emptyDataBlocks := 0 } := by decide

/-! ### Decoding: packets written out from 30_encoding.md and 95_test_vectors.md -/

/-- Program P1, command 1. -/
theorem test_decode_deriveKeys :
    decode (0x01#8 :: [0, 0, 0, 0x40#8] ++ k0Bytes ++ [0, 0, 0, 0] ++ [0, 0, 0, 0]) =
      .ok (.deriveKeys (toBits k0) [] [], []) := by rfl

/-- 30_encoding.md R94. -/
theorem test_decode_encryptBlock :
    decode (0x02#8 :: [0, 0, 0, 0x40#8] ++ k0Bytes ++ [0, 0, 0, 0] ++ [0, 0, 0, 0x40#8] ++ p0Bytes) =
      .ok (.encryptBlock (toBits k0) [] (toBits p0), []) := by rfl

/-- Program P2, with the last DATA byte 80 and with it FF (section 6, pad bits). -/
theorem test_decode_encryptEcb :
    decode (0x03#8 :: [0, 0, 0, 0x40#8] ++ k0Bytes ++ [0, 0, 0, 0] ++ [0, 0, 0, 0x41#8] ++ p0Bytes ++ [0x80#8]) =
      .ok (.encryptEcb (toBits k0) [] (toBits p0 ++ [true]), []) ∧
    decode (0x03#8 :: [0, 0, 0, 0x40#8] ++ k0Bytes ++ [0, 0, 0, 0] ++ [0, 0, 0, 0x41#8] ++ p0Bytes ++ [0xFF#8]) =
      .ok (.encryptEcb (toBits k0) [] (toBits p0 ++ [true]), []) := ⟨by rfl, by rfl⟩

/-- Program P3. -/
theorem test_decode_encryptCbc :
    decode (0x04#8 :: [0, 0, 0, 0x40#8] ++ k0Bytes ++ [0, 0, 0, 0x40#8] ++ p0Bytes ++ [0, 0, 0, 8, 0x41#8]) =
      .ok (.encryptCbc (toBits k0) (toBits p0) [false, true, false, false, false, false, false, true], []) := by rfl

/-- Program P4, command 3. -/
theorem test_decode_illegal :
    decode (0x05#8 :: [0, 0, 0, 0x40#8] ++ k0Bytes ++ [0, 0, 0, 0] ++ [0, 0, 0, 0]) =
      .ok (.illegal 0x05#8 (toBits k0) [] [], []) := by rfl

/-- The table's rows: the command byte alone, and the row `(illegal)` by bytes with OPC 0, OPC 15 and RSV not 0. -/
theorem test_decode_table :
    decodeTableWord 8 0x01 = some (.deriveKeys [] [] []) ∧ decodeTableWord 8 0x02 = some (.encryptBlock [] [] []) ∧
    decodeTableWord 8 0x03 = some (.encryptEcb [] [] []) ∧ decodeTableWord 8 0x04 = some (.encryptCbc [] [] []) ∧
    decodeTableWord 8 0x00 = some (.illegal 0x00#8 [] [] []) ∧ decodeTableWord 8 0x0F = some (.illegal 0x0F#8 [] [] []) ∧
    decodeTableWord 8 0x12 = some (.illegal 0x12#8 [] [] []) := by decide

/-- Each field of a packet is found missing by its name (R90). -/
theorem test_decode_incomplete :
    decode [] = .error .noCommand ∧ decode [0x02#8, 0, 0, 0] = .error .keyIncomplete ∧
    decode [0x02#8, 0, 0, 0, 9, 0xAA#8, 0x80#8, 0, 0, 0, 1] = .error .ivIncomplete ∧
    decode [0x02#8, 0, 0, 0, 0, 0, 0, 0, 0, 0, 0, 0] = .error .dataIncomplete := by decide

/-- R94 the other way round. -/
theorem test_encode_encryptBlock :
    encode (.encryptBlock (toBits k0) [] (toBits p0)) =
      0x02#8 :: [0, 0, 0, 0x40#8] ++ k0Bytes ++ [0, 0, 0, 0] ++ [0, 0, 0, 0x40#8] ++ p0Bytes := by decide +kernel

/-! ### Each command: the responses of 95_test_vectors.md sections 6 and 7 -/

theorem test_deriveKeys_P1 : answer (.deriveKeys (toBits k0) [] []) State.reset = some (102,
    0x0000000003001B02EFFC707279AED9DBC9E555FC8A42CF9972ADD6DB351D7CEC07EB53A863A53E507B2FEC84B7F618BCF78A3AC13BFBE0DBEBEDE781B1F347BA464F215FD3DED3867571F59467E997C5D1FABA415F43B7F2E73ABF918D3D3F0ACB3D8B0E17F5) := by
  decide +kernel
theorem test_deriveKeys_X3 : answer (.deriveKeys (toBits k0 ++ [true]) [] []) State.reset = some (6, 0x010100000000) := by
  decide +kernel
theorem test_encryptBlock_P1 : answer (.encryptBlock (toBits k0) [] (toBits p0)) State.reset =
    some (14, 0x00000000004085E813540F0AB405) := by decide +kernel
theorem test_encryptBlock_P4 : answer (.encryptBlock (toBits k0) [] (toBits p0 ++ [true])) State.reset =
    some (6, 0x010300000000) := by decide +kernel
theorem test_encryptEcb_P2 : answer (.encryptEcb (toBits k0) [] (toBits p0 ++ [true])) State.reset =
    some (22, 0x00000000008085E813540F0AB40587AB78D11E188DF6) := by decide +kernel
theorem test_encryptEcb_P6 : answer (.encryptEcb (toBits k0) [] []) State.reset = some (6, 0) ∧
    answer (.encryptEcb (toBits k0) [] []) oneEmpty = some (14, 0x000000000040948A43F98A834F7E) := by decide +kernel
theorem test_encryptCbc_P3 : answer (.encryptCbc (toBits k0) (toBits p0) (bitsN 8 0x41)) State.reset =
    some (14, 0x000000000040F9CDC47AB12BE1AE) := by decide +kernel
theorem test_encryptCbc_P5 : answer (.encryptCbc (toBits 0x0123456789ABCDEF#64) (toBits 0x1234567890ABCDEF#64)
      (bitsN 192 0x4E6F77206973207468652074696D6520666F7220616C6C20)) State.reset =
    some (30, 0x0000000000C0E5C7CDDE872BF27C43E934008C389C0F683788499A7C05F6) := by decide +kernel
theorem test_illegal_X13 : answer (.illegal 0x14#8 (toBits k0) [] (toBits p0)) State.reset = some (6, 0x020000000000) := by
  decide +kernel
theorem test_illegal_X14 : answer (.illegal 0xFF#8 [] [] []) State.reset = some (6, 0x020000000000) := by decide +kernel

/-! ### The parts: 95_test_vectors.md sections 2 and 3 -/

theorem test_rotations : rol 1 0x8000001#28 = 0x0000003#28 ∧ rol 2 0xC000000#28 = 0x0000003#28 := by decide
theorem test_halves : keyC0 k0 = 0xF0CCAAF#28 ∧ keyD0 k0 = 0x556678F#28 := by decide +kernel
theorem test_expand : expand 0x12345678#32 = 0x0A41A82AC3F0#48 ∧ expand 0x00000001#32 = 0x800000000002#48 := by
  decide +kernel

/-- The S-box corners: the group 100000 has row 2, the group 000001 row 1. -/
theorem test_sbox : (List.range 8).map (sboxOut · 0b100000#6) = [4, 0, 13, 10, 4, 9, 1, 7] ∧
    (List.range 8).map (sboxOut · 0b000001#6) = [0, 3, 13, 13, 14, 10, 13, 1] := by decide +kernel
theorem test_roundF : roundF 0xF0AAF0AA#32 0x1B02EFFC7072#48 = 0x234AA9BB#32 ∧
    roundF 0x00000000#32 0xFFFFFFFFFFFF#48 = 0x38DBF9CB#32 := by decide +kernel
theorem test_ip_fp : perm 64 tableIP p0 = 0xCC00CCFFF0AAF0AA#64 ∧ perm 64 tableFP p0 = 0xFF330FAA00330FAA#64 := by
  decide +kernel

/-- 43_mode_controller.md R208 on vector M1. -/
theorem test_byteValues : byteValues (toBits 0x024C142A621E999E#64) = [2, 76, 20, 42, 98, 30, 153, 158] := by
  decide +kernel

/-! ### One step from reset with a table word on offer -/

theorem test_withFetchWord : (nextOf (step (State.reset.withFetchWord 8 0x04))).map (·.response.packet) =
    some [1, 1, 0, 0, 0, 0] ∧ (nextOf (step (State.reset.withFetchWord 8 0x10))).map (·.response.packet) =
    some [2, 0, 0, 0, 0, 0] := by decide +kernel

/-! ### The assembler: lines of 95_test_vectors.md section 7 -/

theorem test_assemble_block :
    assemble "ENCRYPT_BLOCK key=0x133457799BBCDF, data=0x0123456789ABCDEF      ; 56-bit key".toList =
      .ok (some (.encryptBlock (bitsN 56 0x133457799BBCDF) [] (toBits p0))) := by decide +kernel
theorem test_assemble_cbc :
    assemble "ENCRYPT_CBC   key=0x133457799BBCDFF1, iv=0x01234567, data=\"A\"    ; 32-bit IV".toList =
      .ok (some (.encryptCbc (toBits k0) (bitsN 32 0x01234567) (bitsN 8 0x41))) := by decide +kernel
theorem test_assemble_cmd : assemble ".cmd 0x05, key=0x133457799BBCDFF1".toList =
    .ok (some (.illegal 0x05#8 (toBits k0) [] [])) := by decide +kernel
theorem test_assemble_concat : assemble "ENCRYPT_ECB data=\"A\", key=0x133457799BBCDFF1 ‖ 0xF || 0b1111".toList =
    .ok (some (.encryptEcb (toBits k0 ++ bitsN 8 0xFF) [] (bitsN 8 0x41))) := by decide +kernel
theorem test_assemble_empty : assemble ("DERIVE_KEYS key=".toList ++ [openBrace, closeBrace]) =
    .ok (some (.deriveKeys [] [] [])) ∧ assemble "; only a comment".toList = .ok none := by decide +kernel
theorem test_assemble_refused : assemble "derive_keys".toList = .error .unknownMnemonic ∧
    assemble "DERIVE_KEYS key=0xG".toList = .error .badLiteral ∧
    assemble "ENCRYPT_ECB data=\"‖\"".toList = .error .characterOutsideByte ∧
    assemble "ENCRYPT_ECB data=\"A".toList = .error .unterminatedText ∧
    assemble "ENCRYPT_ECB data=0b1, data=0b1".toList = .error .repeatedOperand ∧
    assemble "ENCRYPT_ECB mode=0b1".toList = .error .malformedOperand := by decide +kernel

/-! ### Witnesses: states that meet the hypotheses of the statements -/

/-- A core in phase `p` of a command on the all-zero key, IV and data block, its subkeys all zero. -/
def busy (p : Phase) (cmd : Byte) : State :=
  { State.reset with
    grain := .phase
    phase := p
    cmdreg := cmd
    keyop := zeros
    ivop := zeros
    dataop := zeros
    nblk := if cmd = 0x01#8 then 0 else 1
    rnd := 1#5 }

/-- The same in ROUND 16 and after it. The halves were computed outside Lean; the result 8CA64DE9C1B123A7 they end in
is 95_test_vectors.md section 4, key and block zero. -/
def atRound16 : State := { busy .round 0x02#8 with l := 0x058CAD0A#32, r := 0xBBEA0DC2#32, rnd := 16#5 }
def atSwap : State := { busy .swap 0x02#8 with l := 0xBBEA0DC2#32, r := 0x1C2087FC#32, rnd := 16#5 }
def atFp : State := { atSwap with phase := .fp, preout := 0x1C2087FCBBEA0DC2#64 }
def atStore : State := { atFp with phase := .blkStore, blkout := 0x8CA64DE9C1B123A7#64 }
def atRespond : State := { atStore with phase := .respond, outbuf := toBits 0x8CA64DE9C1B123A7#64 }

/-- BLK_STORE of the first of two blocks. -/
def atStoreMore : State := { atStore with cmdreg := 0x03#8, dataop := zeros ++ zeros, nblk := 2 }

theorem witness_DecodeOfEncode : (Instr.illegal 0x00#8 [true] [] zeros).wf = true ∧ (Instr.deriveKeys [] [] []).wf = true ∧
    (Instr.encryptCbc zeros [true] zeros).wf = true := by decide

theorem witness_DecodeReadsRawPacket : FieldOf 0 [] ∧ FieldOf 8 [0xAA#8] ∧ FieldOf 9 [0xAA#8, 0xFF#8] := by decide

theorem witness_OperandBitPlacement : FieldOf 9 [0xAA#8, 0x80#8] ∧ FieldOf 9 [0xAA#8, 0xFF#8] ∧
    (unpackBits [0xAA#8, 0x80#8]).take 9 = (unpackBits [0xAA#8, 0xFF#8]).take 9 := by decide

theorem witness_CommandByteSelectsOperation : ∀ c ∈ [0x00#8, 0x05#8, 0x0F#8, 0x11#8, 0xFF#8],
    c ∉ [0x01#8, 0x02#8, 0x03#8, 0x04#8] := by decide

/-- One byte missing at the end, and nothing received at all. -/
theorem witness_IncompletePacketWaits : FieldOf 0 [] ∧ FieldOf 8 [0xAA#8] ∧
    (∃ s : State, s.rx ++ [0xAA#8] = rawPacket 2#8 0 [] 0 [] 8 [0xAA#8] ∧ s.phase = .idle ∧ s.host = []) ∧
    (∃ s : State, s.rx ++ rawPacket 2#8 0 [] 0 [] 0 [] = rawPacket 2#8 0 [] 0 [] 0 [] ∧ s.phase = .idle ∧
      s.host = []) :=
  ⟨by decide, by decide, ⟨{ State.reset with rx := [2#8, 0, 0, 0, 0, 0, 0, 0, 0, 0, 0, 0, 8#8] }, by decide⟩,
    ⟨State.reset, by decide⟩⟩

theorem witness_ResetCutsOffCommand : ∃ s : State, s.host = .reset :: [.wait] ∧ s.phase = .round ∧ s.rx = [2#8] :=
  ⟨{ busy .round 2#8 with host := [.reset, .wait], rx := [2#8] }, by decide⟩

/-- A state for each of the four clauses. -/
theorem witness_StepRunsDecodedCommand :
    decode (encode (.deriveKeys [] [] []) ++ [7#8]) = .ok (.deriveKeys [] [] [], [7#8]) ∧
    (∀ h ∈ [[], [HostMove.wait], [.take], [.send [7#8]]],
      ({ State.reset with host := h } : State).phase = .idle ∧ ({ State.reset with host := h } : State).grain = .command) := by
  decide

theorem witness_TakeGivesResponsePacket : ({ atRespond with host := [.take] } : State).phase = .respond ∧
    ({ atRespond with host := [.take] } : State).host = .take :: [] := ⟨rfl, rfl⟩

theorem witness_ResponseHeldUntilTaken : atRespond.phase = .respond ∧ atRespond.host = [] ∧
    ({ atRespond with host := [.wait] } : State).host = [.wait] ∧
    ({ atRespond with host := [.send [1#8]] } : State).host = [.send [1#8]] := ⟨rfl, rfl, rfl, rfl⟩

theorem witness_BusyCoreAcceptsNothing : (busy .decode 1#8).phase ≠ .idle ∧ atRespond.phase ≠ .idle := by decide

theorem witness_OperandsStayLatched : ∀ s ∈ [busy .decode 1#8, busy .blkLoad 2#8],
    s.phase ≠ .idle ∧ s.host.head? ≠ some .reset ∧ (nextOf (step s)).isSome = true := by decide +kernel

/-- Round 1 with halves not zero writes subkey entry 1. -/
theorem witness_SubkeyWrittenOnlyInItsRound :
    ∃ t, step { busy .ksRound 2#8 with c := 0xFFFFFFF#28 } = .next t ∧ t.ks[0] ≠ (busy .ksRound 2#8).ks[0] :=
  ⟨_, rfl, by decide +kernel⟩

theorem witness_HostSeesOnlyWholeResponses : ∃ t, step { atRespond with host := [.take] } = .next t ∧
    t.taken = [atRespond.response.packet] := ⟨_, rfl, rfl⟩

set_option synthInstance.maxSize 2000 in
/-- Every row of the table, at both ends of the rounds and of the blocks. -/
theorem witness_TransitionTable_keys : ∀ s ∈ [{ State.reset with grain := .phase }, busy .decode 5#8, busy .decode 2#8,
      busy .ksPc1 1#8, busy .ksRound 2#8, { busy .ksRound 1#8 with rnd := 16#5 }, { busy .ksRound 2#8 with rnd := 16#5 },
      { busy .ksRound 3#8 with rnd := 16#5, dataop := [], nblk := 0 }],
    Inv s ∧ s.host = [] ∧ s.grain = .phase := by decide +kernel
set_option synthInstance.maxSize 2000 in
theorem witness_TransitionTable_block : ∀ s ∈ [busy .blkLoad 4#8, busy .ip 2#8, busy .round 2#8, atRound16, atSwap,
      atFp], Inv s ∧ s.host = [] ∧ s.grain = .phase := by decide +kernel
set_option synthInstance.maxSize 2000 in
theorem witness_TransitionTable_end : ∀ s ∈ [atStore, atStoreMore, atRespond],
    Inv s ∧ s.host = [] ∧ s.grain = .phase := by decide +kernel

theorem witness_AcceptLatchesCommand : ∃ s : State, s.phase = .idle ∧ s.grain = .phase ∧ s.host = [] ∧
    decode s.rx = .ok (.encryptBlock [] [] [true], [9#8]) :=
  ⟨{ State.reset with grain := .phase, rx := encode (.encryptBlock [] [] [true]) ++ [9#8] }, by decide⟩

theorem witness_DecodeWritesWorkingRegisters : ∀ c ∈ assignedBytes, (busy .decode c).phase = .decode ∧
    (busy .decode c).host = [] ∧
    firstError (busy .decode c).params (busy .decode c).cmdreg (busy .decode c).keyop (busy .decode c).ivop
      (busy .decode c).dataop = none := by decide +kernel

/-- The five clauses at their boundaries: bytes 0 and 5; keys of 63 and 65 bits, and of 63; an IV of 63; data of 63 and
65 bits; data one bit past the capacity; and all of them met. -/
theorem witness_DecodeRaisesFirstFailingCheck :
    (∀ c ∈ [0x00#8, 0x05#8], c ∉ [0x01#8, 0x02#8, 0x03#8, 0x04#8]) ∧
    (zeros.drop 1).length ≠ 64 ∧ (true :: zeros).length ≠ 64 ∧ (zeros.drop 1).length < 64 ∧
    smallest.params.maxDataBits < (true :: zeros).length ∧ ¬ smallest.params.maxDataBits < zeros.length ∧
    ({ busy .decode 4#8 with params := smallest.params } : State).phase = .decode := by decide

theorem witness_KeyPermutationSelectsKeyBits : (busy .ksPc1 2#8).phase = .ksPc1 ∧ (busy .ksPc1 2#8).host = [] := by decide

/-- Rounds 1, 15 and 16, and the three ways on from round 16. -/
theorem witness_KeyRoundRotatesAndStores : ∀ s ∈ [busy .ksRound 2#8, { busy .ksRound 2#8 with rnd := 15#5 },
      { busy .ksRound 1#8 with rnd := 16#5 }, { busy .ksRound 3#8 with rnd := 16#5, nblk := 0 },
      { busy .ksRound 2#8 with rnd := 16#5 }],
    s.phase = .ksRound ∧ s.host = [] ∧ 1 ≤ s.rnd.toNat ∧ s.rnd.toNat ≤ 16 := by decide

theorem witness_BlockLoadPadsAndChains : ∀ s ∈ [busy .blkLoad 3#8, busy .blkLoad 4#8,
      { busy .blkLoad 4#8 with dataop := zeros ++ [true], nblk := 2, blk := 1 }],
    s.phase = .blkLoad ∧ s.host = [] ∧ s.blk < s.nblk := by decide

theorem witness_BlockPermutationSteps : (busy .ip 2#8).host = [] ∧ (busy .ip 2#8).phase = .ip ∧
    (busy .swap 2#8).phase = .swap ∧ (busy .fp 2#8).phase = .fp := by decide

theorem witness_FeistelRoundUsesOldHalves : ∀ n ∈ [0, 14, 15], n < 16 ∧
    ({ busy .round 2#8 with rnd := BitVec.ofNat 5 (n + 1) } : State).rnd.toNat = n + 1 ∧
    (busy .round 2#8).phase = .round ∧ (busy .round 2#8).host = [] := by decide

theorem witness_BlockStoreAppendsAndChains : (busy .blkStore 4#8).phase = .blkStore ∧ (busy .blkStore 4#8).host = [] ∧
    (busy .blkStore 4#8).nblk ≤ (busy .blkStore 4#8).blk + 1 ∧ atStoreMore.blk + 1 < atStoreMore.nblk ∧
    atStoreMore.phase = .blkStore ∧ atStoreMore.host = [] := by decide

/-- The first and the last address of each space, and one on either side. -/
theorem witness_TableSpacesReadAsMapped : ∀ sp ∈ [Space.pc1, .shifts, .pc2, .e, .sbox, .p, .ip, .fp],
    (sp.first ≤ sp.first ∧ sp.first < sp.first + sp.entries) ∧
    (sp.first ≤ sp.first + sp.entries - 1 ∧ sp.first + sp.entries - 1 < sp.first + sp.entries) ∧
    ¬ (sp.first ≤ sp.first + sp.entries ∧ sp.first + sp.entries < sp.first + sp.entries) := by decide

/-- Section 2.1: k0 with all eight parity bits flipped. -/
theorem witness_ParityBitsDoNotMatter : ∀ j, j < 64 → (j + 1) % 8 ≠ 0 →
    k0.getMsbD j = (0x123556789ABDDEF0#64 : Block).getMsbD j := by decide +kernel

/-- Section 2.1: a weak key whose parity bits are all 1. -/
theorem witness_ZeroHalvesGiveEqualSubkeys : keyC0 0x0101010101010101#64 = 0#28 ∧ keyD0 0x0101010101010101#64 = 0#28 ∧
    State.reset.phase = .idle := by decide +kernel

/-- The commands' statements start from reset; data at the capacity, and empty. -/
theorem witness_commands : State.reset.phase = .idle ∧ zeros.length ≤ smallest.params.maxDataBits ∧
    smallest.phase = .idle ∧ ([] : Bits).length ≤ oneEmpty.params.maxDataBits ∧ oneEmpty.phase = .idle ∧
    blockCount oneEmpty.params [] = 1 := by decide

theorem witness_IllegalCommandAnswersError : (0x05#8 : Byte) ∉ [0x01#8, 0x02#8, 0x03#8, 0x04#8] ∧
    (0x00#8 : Byte) ∉ [0x01#8, 0x02#8, 0x03#8, 0x04#8] ∧ State.reset.phase = .idle := by decide

/-- Keys of 63 and 65 bits; of 64 with data of 63 and 65; of 63; of 64 with an IV of 63. -/
theorem witness_LengthContractViolations : State.reset.phase = .idle ∧ (zeros.drop 1).length ≠ 64 ∧
    (true :: zeros).length ≠ 64 ∧ zeros.length = 64 ∧ (zeros.drop 1).length < 64 ∧ 64 ≤ zeros.length := by decide

theorem witness_CapacityExceeded : smallest.phase = .idle ∧ smallest.params.maxDataBits < (true :: zeros).length ∧
    64 ≤ zeros.length := by decide

theorem witness_EveryCommandOffersExec : (Instr.encryptCbc zeros zeros []).wf = true ∧ State.reset.phase = .idle := by decide

theorem witness_ResponseIndependentOfHistory : State.reset.phase = .idle ∧
    ({ atRespond with phase := .idle } : State).phase = .idle ∧
    State.reset.params = ({ atRespond with phase := .idle } : State).params := by decide

/-- Also NoResponseBeforeStepCount, with 1 and the last count below the bound: 40 of 41. -/
theorem witness_SequencerRefinesCommand : ∃ s : State, s.phase = .idle ∧ s.grain = .phase ∧ s.host = [] ∧
    decode s.rx = .ok (.encryptBlock zeros [] zeros, []) ∧ stepCount s.params 0x02#8 zeros [] zeros = 41 :=
  ⟨{ State.reset with grain := .phase, rx := encode (.encryptBlock zeros [] zeros) }, by decide +kernel⟩

theorem witness_StepsFromAcceptToTake : ∃ s : State, s.phase = .idle ∧ s.grain = .phase ∧ s.host = [.take] ∧
    decode s.rx = .ok (.deriveKeys [] [] [], []) :=
  ⟨{ State.reset with grain := .phase, host := [.take], rx := encode (.deriveKeys [] [] []) }, by decide⟩

theorem witness_HistoryIsSequential : ∃ s : State, (∀ i ∈ [Instr.deriveKeys [] [] [], .illegal 0x05#8 [] [] []],
      i.wf = true) ∧ s.phase = .idle ∧ s.grain = .command ∧ s.rx = [] ∧
    s.host = script [Instr.deriveKeys [] [] [], .illegal 0x05#8 [] [] []] :=
  ⟨{ State.reset with host := script [Instr.deriveKeys [] [] [], .illegal 0x05#8 [] [] []] }, by decide⟩

theorem witness_ComplementationProperty : State.reset.phase = .idle ∧ oneEmpty.phase = .idle := by decide

/-- Data of one bit, and empty data that has a block. -/
theorem witness_ChangedIvChangesFirstBlock : State.reset.phase = .idle ∧ oneEmpty.phase = .idle ∧
    0 < blockCount State.reset.params [true] ∧ 0 < blockCount oneEmpty.params [] ∧
    ([true] : Bits).length ≤ State.reset.params.maxDataBits ∧ p0 ≠ k0 := by decide

/-- Equal blocks 0 and 1, the block count of two blocks, and a split at a block boundary. -/
theorem witness_EcbBlocksIndependent : blockCount smallest.params (zeros ++ zeros) = 2 ∧
    blockAt (zeros ++ zeros) 0 = blockAt (zeros ++ zeros) 1 ∧ zeros ≠ [] ∧ 64 ∣ zeros.length ∧ ([true] : Bits) ≠ [] := by
  decide +kernel

theorem witness_CbcBlocksDependOnEarlierBlocks : 0 < blockCount smallest.params (zeros ++ [true]) ∧
    0 < blockCount smallest.params zeros ∧ blockAt (zeros ++ [true]) 0 = blockAt zeros 0 := by decide +kernel

theorem witness_CbcAgainstEcbAndBlock : smallest.phase = .idle ∧ State.reset.phase = .idle ∧
    64 ≤ smallest.params.maxDataBits := by decide

/-- One bit padded by the 63 that fill the block. -/
theorem witness_PaddingNotRecorded :
    blockCount smallest.params ([true] ++ List.replicate 63 false) = blockCount smallest.params [true] ∧
    blockCount oneEmpty.params ([] ++ List.replicate 64 false) = blockCount oneEmpty.params [] := by decide

/-- Also SubstitutionLooksUpGroups: the first and the last group and place. -/
theorem witness_ExpansionRowsOverlap : (0 < 8 ∧ 0 < 6) ∧ (7 < 8 ∧ 5 < 6) ∧ (7 < 8 ∧ 3 < 4) := by decide

theorem witness_ResultBytesMsbFirst : 8 ∣ zeros.length ∧ 8 * 0 < zeros.length ∧ 8 * 7 < zeros.length := by decide

set_option synthInstance.maxSize 2000 in
/-- Also InvariantRunsSafely: the states of `witness_TransitionTable_*` meet the invariant in every phase. -/
theorem witness_StepKeepsInvariant : Inv { State.reset with host := [.send [2#8], .reset] } ∧
    (nextOf (step { State.reset with host := [.send [2#8], .reset] })).isSome = true := by decide +kernel

set_option synthInstance.maxSize 2000 in
/-- A response with each STATUS. -/
theorem witness_ResponseCodesAndLengths : ∀ s ∈ [atRespond,
      { busy .respond 2#8 with keyop := [], status := 1#8, diag := 1#8 },
      { busy .respond 5#8 with status := 2#8 },
      { busy .respond 3#8 with params := smallest.params, dataop := true :: zeros, status := 3#8, diag := 3#8 }],
    Inv s ∧ rspValid s = true := by decide +kernel

/-- An operand of both signs; the hypotheses on text literals. -/
theorem witness_OperandLiteralBits : (∀ d ∈ [0, 15], d < 16) ∧ (∀ c ∈ ['A', Char.ofNat 255], c.toNat ≤ 255) ∧
    (∃ c ∈ [Char.ofNat 256], 255 < c.toNat) ∧ operandBits (word ['0', 'b', '1']) = .ok [true] ∧
    .ch '|' ∉ word ['0', 'b', '1'] := by
  refine ⟨by decide, ?_, ⟨Char.ofNat 256, by simp, ?_⟩, by decide +kernel, by decide⟩
  · intro c hc
    simp only [List.mem_cons, List.not_mem_nil, or_false] at hc
    rcases hc with rfl | rfl
    · rw [show 'A'.toNat = 65 from rfl]; norm_num
    · rw [show (Char.ofNat 255).toNat = 255 from rfl]
  · rw [show (Char.ofNat 256).toNat = 256 from rfl]; norm_num

theorem witness_OperandOrderDoesNotMatter :
    commandOfWritten 3#8 [word "key=0x1".toList, word "data=0b1".toList] =
      .ok (.encryptEcb [false, false, false, true] [] [true]) ∧
    [word "key=0x1".toList, word "data=0b1".toList].Perm [word "data=0b1".toList, word "key=0x1".toList] :=
  ⟨by decide +kernel, List.Perm.swap _ _ _⟩

/-- A line read; a hexadecimal key, no IV and a text literal as data, in either order; the byte of `.cmd`. -/
theorem witness_AssembledLineDecodes : assemble "DERIVE_KEYS".toList = .ok (some (.deriveKeys [] [] [])) ∧
    WrittenAs ['k', 'e', 'y'] (some (word ['k', 'e', 'y', '=', '0', 'x', '1'])) [false, false, false, true] ∧
    WrittenAs ['i', 'v'] none [] ∧
    WrittenAs ['d', 'a', 't', 'a'] (some (word ['d', 'a', 't', 'a', '='] ++ [.text ['A', ',']])) (bitsN 16 0x412C) ∧
    (∀ p ∈ word ['0', 'x', '0', '5'], PlainPiece p) ∧ operandBits (word ['0', 'x', '0', '5']) = .ok (toBits 0x05#8) := by
  have plain : ∀ c ∈ ['0', 'x', '1', '5'], PlainPiece (.ch c) := by
    intro c hc
    fin_cases hc <;> exact ⟨by decide, by decide, by decide, by decide, by decide⟩
  refine ⟨by decide +kernel, ⟨by decide, .inr ⟨word ['0', 'x', '1'], rfl, ?_, by decide +kernel⟩⟩,
    ⟨by decide, .inl ⟨rfl, rfl⟩⟩, ⟨by decide, .inr ⟨[.text ['A', ',']], rfl, ?_, by decide +kernel⟩⟩, ?_,
    by decide +kernel⟩
  · intro p hp
    obtain ⟨c, hc, rfl⟩ := List.mem_map.1 hp
    fin_cases hc <;> exact plain _ (by decide)
  · intro p hp
    rw [List.mem_singleton.1 hp]
    change quote ∉ ['A', ',']
    decide
  · intro p hp
    obtain ⟨c, hc, rfl⟩ := List.mem_map.1 hp
    fin_cases hc <;> exact plain _ (by decide)

end Sys2Proof.Tests
end

section
/-! PROOFS. The state family of statements (10_state.md): every step keeps the invariant, which step writes a subkey
entry, a response is a function of its command, and the codes and lengths of a response. -/

namespace Sys2Proof.Machine

open Sys2Proof.Config

/-! ### Every step keeps the invariant -/

/-- The invariant reads neither the host's coming moves nor the bytes received. -/
theorem inv_host_rx {s : State} (h : Inv s) (host : List HostMove) (rx : List Byte) :
    Inv { s with host := host, rx := rx } := h

/-- In IDLE and DECODE no phase relies on anything. -/
theorem inv_of_idle_or_decode {s : State} (hp : s.params.wf) (hn : s.nblk ≤ 2 ^ 26)
    (h : s.phase = .idle ∨ s.phase = .decode) : Inv s := ⟨hp, hn, phaseInv_idle h⟩

/-- DECODE raises the first check that fails (60_exceptions.md R235). -/
theorem stepDecode_eq_raise {s : State} {e : CmdError}
    (he : firstError s.params s.cmdreg s.keyop s.ivop s.dataop = some e) : stepDecode s = raise e s := by
  unfold stepDecode
  cases ho : opcodeOf s.cmdreg with
  | none =>
    rw [firstError_illegal ho] at he
    cases he
    rfl
  | some op =>
    cases op with
    | deriveKeys => rw [firstError_deriveKeys ho] at he; simp only [decodeDeriveKeys]; grind
    | encryptBlock => rw [firstError_encryptBlock ho] at he; simp only [decodeEncryptBlock]; grind
    | encryptEcb => rw [firstError_encryptEcb ho] at he; simp only [decodeEncryptEcb]; grind
    | encryptCbc => rw [firstError_encryptCbc ho] at he; simp only [decodeEncryptCbc]; grind

/-- A command whose checks pass has at most 2^26 blocks (10_state.md R22). -/
theorem latchedPlain_length_le {s : State} (hp : s.params.wf)
    (he : firstError s.params s.cmdreg s.keyop s.ivop s.dataop = none) : (latchedPlain s).length ≤ 2 ^ 26 := by
  have hb : s.dataop.length ≤ s.params.maxDataBits → blockCount s.params s.dataop ≤ 2 ^ 26 :=
    fun h => blockCount_le _ _ (h.trans hp.2)
  rcases firstError_none he with h | h | h | h <;> simp only [latchedPlain, State.op, h.1, plainBlocks]
  · simp
  · simp
  · simpa using hb h.2.2
  · simpa using hb h.2.2.2

/-- DECODE keeps the block count within the 27 bits of NBLK. -/
theorem stepDecode_nblk_le {s : State} (hp : s.params.wf) (hn : s.nblk ≤ 2 ^ 26) :
    (stepDecode s).nblk ≤ 2 ^ 26 := by
  obtain ⟨hside, -, -⟩ := stepDecode_keeps s
  cases he : firstError s.params s.cmdreg s.keyop s.ivop s.dataop with
  | some e => rwa [stepDecode_eq_raise he]
  | none =>
    have hph : (stepDecode s).phase = .ksPc1 := by rw [stepDecode_phase, he]; rfl
    obtain ⟨⟨hchecks, -, -, hnblk⟩, -⟩ := (phaseInv_stepDecode s).1 hph
    rw [hnblk]
    exact latchedPlain_length_le (by rwa [hside.1]) hchecks

/-- One transition of the sequencer keeps the block count within the 27 bits of NBLK. -/
theorem seqStep_nblk_le {s t : State} (hp : s.params.wf) (hn : s.nblk ≤ 2 ^ 26) (h : seqStep s = .next t) :
    t.nblk ≤ 2 ^ 26 := by
  by_cases hidle : s.phase = .idle
  · rw [seqStep_idle hidle] at h
    obtain rfl := Host.Outcome.next.inj h
    unfold stepIdle
    split <;> exact hn
  by_cases hdec : s.phase = .decode
  · rw [seqStep_decode hdec] at h
    obtain rfl := Host.Outcome.next.inj h
    exact stepDecode_nblk_le hp hn
  · obtain ⟨-, -, hsel, -⟩ := seqStep_keeps h
    rwa [(hsel hidle hdec).2.2]

/-- One transition of the sequencer keeps the invariant. -/
theorem inv_seqStep {s t : State} (hi : Inv s) (h : seqStep s = .next t) : Inv t := by
  obtain ⟨hp, hn, hph⟩ := hi
  obtain ⟨t', ht', hph'⟩ := phaseInv_seqStep hph
  obtain rfl : t = t' := Host.Outcome.next.inj (h.symm.trans ht')
  have hparams := (seqStep_keeps h).1.1
  exact ⟨by rwa [hparams], seqStep_nblk_le hp hn h, hph'⟩

/-- So does the sequencer's run to RESPOND. -/
theorem inv_runToRespond (n : Nat) {s t : State} (hi : Inv s) (h : runToRespond n s = .next t) : Inv t := by
  induction n generalizing s with
  | zero => obtain rfl := Host.Outcome.next.inj h; exact hi
  | succ n ih =>
    unfold runToRespond at h
    split at h
    · obtain rfl := Host.Outcome.next.inj h; exact hi
    split at h
    · exact ih (inv_seqStep hi ‹_›) h
    · cases h
    · cases h

/-- A decoded command run as a whole keeps the invariant. -/
theorem inv_exec_commandOf {c : Byte} {k v d : Bits} {s t : State} (hi : Inv s) (hidle : s.phase = .idle)
    (h : exec (commandOf c k v d) s = .next t) : Inv t := by
  rw [exec_commandOf c k v d hidle] at h
  have hacc : Inv (accept c k v d s) := inv_of_idle_or_decode hi.1 hi.2.1 (.inr rfl)
  exact inv_runToRespond _ (inv_seqStep hacc (seqStep_decode rfl)) h

/-- The host's move before the core's keeps the invariant. -/
theorem inv_turn_core {s u : State} (hi : Inv s) (h : turn s = .core u) : Inv u := by
  rcases turn_core_eq h with ⟨host, rfl⟩ | ⟨-, host, bs, rfl⟩
  · exact inv_host_rx hi host s.rx
  · exact inv_host_rx hi host (s.rx ++ bs)

/-- Settles O58, by what a step can be (`step_cases`): a reset or a take leaves the core idle; a whole command is
accept, DECODE and a run of the sequencer; and one transition keeps the invariant phase by phase. -/
theorem stepKeepsInvariant : Obligations.StepKeepsInvariant := by
  intro s t hi h
  rcases step_cases h with ⟨host, -, rfl⟩ | ⟨host, -, -, rfl⟩ | ⟨u, i, v, hu, hf, hx⟩ | ⟨u, hu, -, hx⟩
  · exact inv_of_idle_or_decode hi.1 (Nat.zero_le _) (.inl rfl)
  · exact inv_of_idle_or_decode hi.1 hi.2.1 (.inl rfl)
  · obtain ⟨hidle, -, rest, hdec, rfl⟩ := fetch_eq hf
    obtain ⟨c, k, iv, d, rfl⟩ := decode_wf_commandOf hdec
    exact inv_exec_commandOf (inv_host_rx (inv_turn_core hi hu) u.host rest) hidle hx
  · exact inv_seqStep (inv_turn_core hi hu) hx

/-! ### Which step writes a subkey entry -/

/-- `SHIFTS[n]` is read at the round numbers only. -/
theorem one_le_of_memRead_shifts {n : Nat} {k : BitVec Space.shifts.width} (h : memRead .shifts n = some k) :
    1 ≤ n := by
  unfold memRead at h
  split at h
  · exact (‹_ ∧ _› : _).1
  · cases h

/-- One transition changes entry n of KS in round n of KS_ROUND only (40_key_schedule.md R113). -/
theorem seqStep_ks_getElem_ne {s t : State} {m : Nat} (hm : m < 16) (h : seqStep s = .next t)
    (hne : t.ks[m] ≠ s.ks[m]) : s.phase = .ksRound ∧ s.rnd.toNat = m + 1 := by
  have hph : s.phase = .ksRound := by
    by_contra hph
    obtain ⟨-, -, -, hks⟩ := seqStep_keeps h
    exact hne (by simp [hks hph])
  refine ⟨hph, ?_⟩
  rw [seqStep_ksRound hph] at h
  obtain ⟨k, hk, rfl⟩ := stepKsRound_next h
  have hpos := one_le_of_memRead_shifts hk
  obtain ⟨-, -, -, hks⟩ := afterKsRound_keeps (rotateAndStore k.toNat s)
  by_contra hrnd
  apply hne
  rw [show (afterKsRound (rotateAndStore k.toNat s)).ks[m] = (rotateAndStore k.toNat s).ks[m] by rw [hks]]
  exact Vector.getElem_setIfInBounds_ne hm (by omega : s.rnd.toNat - 1 ≠ m)

/-- The host's move before the core's writes no register. -/
theorem turn_core_registers {s u : State} (h : turn s = .core u) :
    u.phase = s.phase ∧ u.rnd = s.rnd ∧ u.ks = s.ks := by
  rcases turn_core_eq h with ⟨_, rfl⟩ | ⟨-, _, _, rfl⟩ <;> exact ⟨rfl, rfl, rfl⟩

/-- Settles O17, by what a step can be: of a busy core, short of reset, only the sequencer's own transition writes
KS. -/
theorem subkeyWrittenOnlyInItsRound : Obligations.SubkeyWrittenOnlyInItsRound := by
  intro s t m hm hbusy hreset h hne
  rcases step_cases h with ⟨host, hr, -⟩ | ⟨host, -, -, rfl⟩ | ⟨u, i, v, hu, hf, -⟩ | ⟨u, hu, -, hx⟩
  · simp [hr] at hreset
  · exact absurd rfl hne
  · exact absurd ((turn_core_registers hu).1.symm.trans (fetch_eq hf).1) hbusy
  · obtain ⟨hph, hrnd, hks⟩ := turn_core_registers hu
    rw [← hph, ← hrnd]
    exact seqStep_ks_getElem_ne hm hx (by simpa only [hks] using hne)

/-! ### A response is a function of its command -/

/-- A decoded command offers `Exec` of its byte and operands (42_block_transform.md R182). -/
theorem exec_commandOf_response (c : Byte) (k v d : Bits) {s : State} (h : s.phase = .idle) :
    ∃ t, exec (commandOf c k v d) s = .next t ∧ t.phase = .respond ∧ t.response = execRef s.params c k v d := by
  obtain ⟨-, t, -, -, hph, hresp, -, -, hfin⟩ := command_path (accept c k v d s)
  exact ⟨t, (exec_commandOf c k v d h).trans hfin, hph, hresp⟩

/-- The meaning of the row `(illegal)` raises ILLEGAL_COMMAND, whatever the byte it is given. -/
theorem exec_illegal (c : Byte) (k v d : Bits) {s : State} (h : s.phase = .idle) :
    exec (.illegal c k v d) s = .next (raise .illegalCommand (accept c k v d s)) :=
  (if_pos h).trans (finishCommand_respond rfl)

/-- The response of a command is a function of the command and the parameters alone, also of an `illegal` with one
of the assigned bytes, which no packet carries. -/
theorem exec_response_of_params (i : Instr) :
    ∃ resp : Params → Response, ∀ s : State, s.phase = .idle →
      ∃ t, exec i s = .next t ∧ t.phase = .respond ∧ t.response = resp s.params := by
  cases i with
  | deriveKeys k v d => exact ⟨fun p => execRef p 0x01#8 k v d, fun s => exec_commandOf_response 0x01#8 k v d⟩
  | encryptBlock k v d => exact ⟨fun p => execRef p 0x02#8 k v d, fun s => exec_commandOf_response 0x02#8 k v d⟩
  | encryptEcb k v d => exact ⟨fun p => execRef p 0x03#8 k v d, fun s => exec_commandOf_response 0x03#8 k v d⟩
  | encryptCbc k v d => exact ⟨fun p => execRef p 0x04#8 k v d, fun s => exec_commandOf_response 0x04#8 k v d⟩
  | illegal c k v d => exact ⟨fun _ => ⟨2#8, 0#8, []⟩, fun s h => ⟨_, exec_illegal c k v d h, rfl, rfl⟩⟩

/-- Settles O45: both runs offer the one response that the command and the parameters determine. -/
theorem responseIndependentOfHistory : Obligations.ResponseIndependentOfHistory := by
  intro i s s' hs hs' hparams
  obtain ⟨resp, hresp⟩ := exec_response_of_params i
  obtain ⟨t, hx, hph, hr⟩ := hresp s hs
  obtain ⟨t', hx', hph', hr'⟩ := hresp s' hs'
  exact ⟨t, t', hx, hx', hph, hph', by rw [hr, hr', hparams]⟩

/-! ### The codes and lengths of a response -/

/-- The errors that the checks of R235 report. -/
theorem firstError_cases {p : Params} {c : Byte} {k v d : Bits} {e : CmdError} (h : firstError p c k v d = some e) :
    (∃ x, e = .lengthContractViolation x) ∨ e = .illegalCommand ∨ e = .capacityExceeded .data := by
  cases ho : opcodeOf c with
  | none => rw [firstError_illegal ho] at h; simp_all
  | some op =>
    cases op with
    | deriveKeys => rw [firstError_deriveKeys ho] at h; grind
    | encryptBlock => rw [firstError_encryptBlock ho] at h; grind
    | encryptEcb => rw [firstError_encryptEcb ho] at h; grind
    | encryptCbc => rw [firstError_encryptCbc ho] at h; grind

/-- The length of a result: sixteen subkeys of DERIVE_KEYS, or a block for each plaintext block. -/
theorem resultBits_length (p : Params) (op : Opcode) (k v d : Bits) :
    (resultBits p op k v d).length = if op = .deriveKeys then 768 else 64 * (plainBlocks p op d).length := by
  cases op with
  | deriveKeys => simp [resultBits, subkeyBits_length]
  | encryptBlock => simp [resultBits, plainBlocks]
  | encryptEcb => simp [resultBits, plainBlocks, ecb, blockBits_length]
  | encryptCbc => simp [resultBits, plainBlocks, cbc, blockBits_length]

/-- The response to a command whose check fails. -/
theorem execRef_of_error {p : Params} {c : Byte} {k v d : Bits} {e : CmdError} (h : firstError p c k v d = some e) :
    execRef p c k v d = ⟨e.status, e.diag, []⟩ := by simp [execRef, h]

/-- The response to a command whose checks pass. -/
theorem execRef_of_ok {p : Params} {c : Byte} {k v d : Bits} {op : Opcode} (h : firstError p c k v d = none)
    (ho : opcodeOf c = some op) : execRef p c k v d = ⟨statusOk, 0#8, resultBits p op k v d⟩ := by
  simp [execRef, h, ho]

/-- No error has the STATUS OK (10_state.md R33). -/
theorem error_status_ne_ok (e : CmdError) : e.status ≠ 0#8 := by
  cases e <;> simp [CmdError.status]

/-- The codes of an error that the checks report are assigned (R33). -/
theorem firstError_codes {p : Params} {c : Byte} {k v d : Bits} {e : CmdError} (h : firstError p c k v d = some e) :
    (e.status = 1#8 ∧ (e.diag = 1#8 ∨ e.diag = 2#8 ∨ e.diag = 3#8)) ∨ (e.status = 2#8 ∧ e.diag = 0#8) ∨
      (e.status = 3#8 ∧ e.diag = 3#8) := by
  rcases firstError_cases h with ⟨x, rfl⟩ | rfl | rfl
  · cases x <;> decide
  · decide
  · decide

/-- The length of a result is a whole number of bytes. -/
theorem eight_dvd_resultBits_length (p : Params) (op : Opcode) (k v d : Bits) :
    8 ∣ (resultBits p op k v d).length := by
  rw [resultBits_length]
  split <;> omega

/-- The length of a result by command byte (30_encoding.md R89). -/
theorem resultBits_length_of_byte (p : Params) {c : Byte} {op : Opcode} (ho : opcodeOf c = some op) (k v d : Bits) :
    (c = 0x01#8 → (resultBits p op k v d).length = 768) ∧ (c = 0x02#8 → (resultBits p op k v d).length = 64) ∧
      (c = 0x03#8 ∨ c = 0x04#8 → (resultBits p op k v d).length = 64 * blockCount p d) := by
  rcases opcodeOf_cases c with ⟨rfl, h⟩ | ⟨rfl, h⟩ | ⟨rfl, h⟩ | ⟨rfl, h⟩ | ⟨-, h⟩
  all_goals cases h.symm.trans ho
  all_goals simp [resultBits_length, plainBlocks]

/-- Settles O60: the response on offer is `Exec` of the latched command, so the codes of the first error and no
result, or STATUS OK and a result of the command's length. -/
theorem responseCodesAndLengths : Obligations.ResponseCodesAndLengths := by
  intro s hi hv
  obtain ⟨-, -, -, -, -, -, -, -, -, -, hresp⟩ := hi
  have hresp := hresp (of_decide_eq_true hv)
  cases he : firstError s.params s.cmdreg s.keyop s.ivop s.dataop with
  | some e =>
    rw [execRef_of_error he] at hresp
    obtain ⟨hstatus, hdiag, hout⟩ := Response.mk.inj hresp
    rw [hstatus, hdiag, hout]
    exact ⟨.inr (firstError_codes he), by simp, fun _ => rfl, fun h => absurd h (error_status_ne_ok e)⟩
  | none =>
    obtain ⟨op, ho⟩ : ∃ op, opcodeOf s.cmdreg = some op := by
      rcases firstError_none he with h | h | h | h <;> exact ⟨_, h.1⟩
    rw [execRef_of_ok he ho] at hresp
    obtain ⟨hstatus, hdiag, hout⟩ := Response.mk.inj hresp
    rw [hstatus, hdiag, hout]
    exact ⟨.inl ⟨rfl, rfl⟩, eight_dvd_resultBits_length .., fun h => absurd rfl h,
      fun _ => resultBits_length_of_byte _ ho ..⟩

end Sys2Proof.Machine
end

section
/-! PROOFS. The memory family of statements (20_memory.md): the table spaces, what a step shows the host, when a
response is on offer, the history a host observes, and the bytes of a result. -/

namespace Sys2Proof.Machine

open Sys2Proof.Claims

/-! ### The table spaces -/

/-- Outside the address range of a space nothing is read (20_memory.md R51). -/
theorem memRead_eq_none {sp : Space} {a : Nat} (h : ¬ (sp.first ≤ a ∧ a < sp.first + sp.entries)) :
    memRead sp a = none := if_neg h

/-- Inside the address range of a space its entry is read, whole where the entry fits its width. -/
theorem memRead_eq_some {sp : Space} {a v : Nat} (h : sp.first ≤ a ∧ a < sp.first + sp.entries)
    (hv : sp.entry a = some v) : memRead sp a = some (BitVec.ofNat sp.width v) := by
  simp only [memRead, if_pos h, hv, Option.map_some]

/-- A space that holds a table from address 1 on reads a legal entry at each address in its range, where all
entries of the table are legal and fit the entry width. -/
theorem memRead_legal_of_table {sp : Space} (T : List Nat) (hfirst : sp.first = 1) (hlen : T.length = sp.entries)
    (hentry : ∀ a, sp.entry a = T[a - 1]?) (hlegal : ∀ v ∈ T, v < 2 ^ sp.width ∧ sp.legal v = true) {a : Nat}
    (h : sp.first ≤ a ∧ a < sp.first + sp.entries) : ∃ v, memRead sp a = some v ∧ sp.legal v.toNat = true := by
  have ha : a - 1 < T.length := by omega
  obtain ⟨hfits, hv⟩ := hlegal T[a - 1] (List.getElem_mem ha)
  refine ⟨_, memRead_eq_some h ((hentry a).trans (List.getElem?_eq_getElem ha)), ?_⟩
  rwa [BitVec.toNat_ofNat, Nat.mod_eq_of_lt hfits]

/-- Every S-box entry is a number of 4 bits (R50). -/
theorem sboxAt_le : ∀ i < 8, ∀ row < 4, ∀ col < 16, sboxAt i row col ≤ 15 := by decide +kernel

/-- `ROM_SBOX` holds `SBOX[i][row][col]` at 64*i + 16*row + col (R51). -/
theorem entry_sbox : ∀ i < 8, ∀ row < 4, ∀ col < 16,
    Space.entry .sbox (64 * i + 16 * row + col) = some (sboxAt i row col) := by decide +kernel

/-- What `ROM_SBOX` reads at 64*i + 16*row + col. -/
theorem memRead_sbox {i row col : Nat} (hi : i < 8) (hr : row < 4) (hc : col < 16) :
    memRead .sbox (64 * i + 16 * row + col) = some (BitVec.ofNat 4 (sboxAt i row col)) :=
  memRead_eq_some ⟨Nat.zero_le _, by simp only [Space.first, Space.entries]; omega⟩ (entry_sbox i hi row hr col hc)

/-- The value of an S-box entry as read. -/
theorem sboxAt_toNat {i row col : Nat} (hi : i < 8) (hr : row < 4) (hc : col < 16) :
    (BitVec.ofNat 4 (sboxAt i row col)).toNat = sboxAt i row col := by
  have := sboxAt_le i hi row hr col hc
  rw [BitVec.toNat_ofNat, Nat.mod_eq_of_lt (by omega)]

/-- `ROM_SBOX` reads a legal entry at each of its addresses, which are all of the form 64*i + 16*row + col. -/
theorem memRead_sbox_legal {a : Nat} (h : a < 512) :
    ∃ v, memRead .sbox a = some v ∧ Space.legal .sbox v.toNat = true := by
  have hi : a / 64 < 8 := by omega
  have hr : a / 16 % 4 < 4 := by omega
  have hc : a % 16 < 16 := by omega
  have hread := memRead_sbox hi hr hc
  rw [show 64 * (a / 64) + 16 * (a / 16 % 4) + a % 16 = a by omega] at hread
  exact ⟨_, hread, decide_eq_true ((sboxAt_toNat hi hr hc).trans_le (sboxAt_le _ hi _ hr _ hc))⟩

/-- Settles O29: seven spaces hold a table of legal entries from address 1 on, and every address of `ROM_SBOX` is
64*i + 16*row + col. -/
theorem tableSpacesReadAsMapped : Obligations.TableSpacesReadAsMapped := by
  refine ⟨fun sp a => ⟨fun h => ?_, memRead_eq_none⟩, fun i row col hi hr hc => ?_⟩
  · cases sp with
    | pc1 => exact memRead_legal_of_table tablePC1 rfl rfl (fun _ => rfl) (by decide) h
    | shifts => exact memRead_legal_of_table tableShifts rfl rfl (fun _ => rfl) (by decide) h
    | pc2 => exact memRead_legal_of_table tablePC2 rfl rfl (fun _ => rfl) (by decide) h
    | e => exact memRead_legal_of_table tableE rfl rfl (fun _ => rfl) (by decide) h
    | sbox => exact memRead_sbox_legal (by simpa [Space.first, Space.entries] using h)
    | p => exact memRead_legal_of_table tableP rfl rfl (fun _ => rfl) (by decide) h
    | ip => exact memRead_legal_of_table tableIP rfl rfl (fun _ => rfl) (by decide) h
    | fp => exact memRead_legal_of_table tableFP rfl rfl (fun _ => rfl) (by decide) h
  · rw [memRead_sbox hi hr hc]
    exact congrArg some (sboxAt_toNat hi hr hc)

/-! ### What a step shows the host -/

/-- The host's move before the core's writes neither the parameters nor the grain nor what the host has taken. -/
theorem turn_core_side {s u : State} (h : turn s = .core u) :
    u.params = s.params ∧ u.grain = s.grain ∧ u.taken = s.taken := by
  rcases turn_core_eq h with ⟨_, rfl⟩ | ⟨-, _, _, rfl⟩ <;> exact ⟨rfl, rfl, rfl⟩

/-- Settles O18, by what a step can be: only a take adds to what the host has taken, and it leaves the core idle. -/
theorem hostSeesOnlyWholeResponses : Obligations.HostSeesOnlyWholeResponses := by
  intro s t h
  rcases step_cases h with ⟨host, -, rfl⟩ | ⟨host, -, hresp, rfl⟩ | ⟨u, i, v, hu, hf, hx⟩ | ⟨u, hu, -, hx⟩
  · exact ⟨rfl, rfl, .inl rfl⟩
  · exact ⟨rfl, rfl, .inr ⟨decide_eq_true hresp, rfl, rfl⟩⟩
  · obtain ⟨hp, hg, ht⟩ := turn_core_side hu
    obtain ⟨-, -, rest, -, rfl⟩ := fetch_eq hf
    obtain ⟨hp', hg', -, ht'⟩ := exec_side hx
    exact ⟨hp'.trans hp, hg'.trans hg, .inl (ht'.trans ht)⟩
  · obtain ⟨hp, hg, ht⟩ := turn_core_side hu
    obtain ⟨⟨hp', hg', -, ht'⟩, -⟩ := seqStep_keeps hx
    exact ⟨hp'.trans hp, hg'.trans hg, .inl (ht'.trans ht)⟩

/-! ### When a response is on offer -/

/-- Short of its end a path is in neither IDLE nor RESPOND. -/
theorem Path.before_end {n m : Nat} {s t : State} (h : Path n s t) (hm : m < n) :
    ∃ u, Path m s u ∧ u.phase ≠ .idle ∧ u.phase ≠ .respond := by
  induction n generalizing s m with
  | zero => omega
  | succ n ih =>
    obtain ⟨hidle, hresp, v, hv, hp⟩ := h
    cases m with
    | zero => exact ⟨s, rfl, hidle, hresp⟩
    | succ m =>
      obtain ⟨u, hu, hphase⟩ := ih (m := m) hp (by omega)
      exact ⟨u, hu.cons hidle hresp hv, hphase⟩

/-- At the grain of transitions an idle core accepts the packet on offer (42_block_transform.md R180). -/
theorem step_accept {s : State} {i : Instr} {rest : List Byte} (hidle : s.phase = .idle) (hg : s.grain = .phase)
    (hh : s.host = []) (hdec : decode s.rx = .ok (i, rest)) :
    step s = .next (accept i.cmdByte i.key i.iv i.data { s with rx := rest }) := by
  rw [step_phase hh hg, seqStep_idle hidle, stepIdle, hdec]

/-- An accepted command goes from DECODE to RESPOND in its step count less accept and take
(70_reset_and_hazards.md R271). -/
theorem path_accept (c : Byte) (k v d : Bits) (s : State) :
    ∃ n t, n + 2 = stepCount s.params c k v d ∧ Path n (accept c k v d s) t ∧ t.phase = .respond := by
  obtain ⟨n, t, hn, hp, hresp, -⟩ := command_path (accept c k v d s)
  exact ⟨n + 1, t, hn, hp.cons (by simp) (by simp) (seqStep_decode rfl), hresp⟩

/-- Settles O47: after the accept the machine's run is the beginning of the command's path to RESPOND. -/
theorem noResponseBeforeStepCount : Obligations.NoResponseBeforeStepCount := by
  intro s i rest m hidle hg hh hdec hpos hlt
  obtain ⟨m, rfl⟩ := Nat.exists_eq_add_of_le' hpos
  obtain ⟨n, t, hn, hp, -⟩ := path_accept i.cmdByte i.key i.iv i.data { s with rx := rest }
  have hm : m < n := by
    simp only at hn
    omega
  obtain ⟨u, hu, hnotIdle, hnotResp⟩ := hp.before_end hm
  refine ⟨u, ?_, decide_eq_false hnotResp, decide_eq_false hnotIdle⟩
  rw [run_succ m (step_accept hidle hg hh hdec)]
  exact hu.runs hg hh 0

/-! ### The history a host observes -/

/-- The decoder gives back an encoded well-formed command and the bytes after its packet (30_encoding.md R87). -/
theorem decode_encode_append {i : Instr} (h : i.wf = true) (rest : List Byte) :
    decode (encode i ++ rest) = .ok (i, rest) := by
  obtain ⟨hk, hv, hd⟩ := wf_fits i h
  simp only [encode, List.cons_append, List.append_assoc, decode, readOperand_encodeOperand _ _ hk,
    readOperand_encodeOperand _ _ hv, readOperand_encodeOperand _ _ hd, commandOf_self i h]

/-- A well-formed command run as a whole offers `Exec` of it and leaves the bytes received and the host's side
alone (42_block_transform.md R182). -/
theorem exec_offers_execRef {i : Instr} (h : i.wf = true) {s : State} (hidle : s.phase = .idle) :
    ∃ t, exec i s = .next t ∧ t.phase = .respond ∧ t.response = responseOf s.params i ∧ SideKept s t ∧ t.rx = s.rx := by
  obtain ⟨-, t, -, -, hphase, hresp, hside, hlatch, hfin⟩ := command_path (accept i.cmdByte i.key i.iv i.data s)
  obtain ⟨-, -, -, -, hrx⟩ := hlatch
  have hexec := exec_commandOf i.cmdByte i.key i.iv i.data hidle
  rw [commandOf_self i h] at hexec
  exact ⟨t, hexec.trans hfin, hphase, hresp, hside, hrx⟩

/-- The step at which an idle core that holds no bytes is sent a whole packet runs its command, at the grain of
commands. -/
theorem step_send_packet {i : Instr} (hwf : i.wf = true) {s : State} {host : List HostMove} (hidle : s.phase = .idle)
    (hg : s.grain = .command) (hrx : s.rx = []) (hh : s.host = .send (encode i) :: host) :
    step s = exec i { s with host := host } := by
  have hdec : decode (encode i) = .ok (i, []) := by simpa using decode_encode_append hwf []
  have hturn : turn s = .core { s with host := host, rx := encode i } := by simp [turn, hh, hidle, hrx]
  have hfetch : fetch { s with host := host, rx := encode i } = some (i, { s with host := host }) := by
    simp [fetch, hidle, hg, hdec, ← hrx]
  rw [step, hturn]
  simp only [hfetch]

/-- The step at which the host takes the response on offer. -/
theorem step_take {s : State} {host : List HostMove} (hresp : s.phase = .respond) (hh : s.host = .take :: host) :
    step s = .next (takeResponse { s with host := host }) := by
  simp [step, turn, hh, hresp]

/-- Sending one command and taking its response: two steps, after which the core is as ready as before and the host
has one packet more. -/
theorem run_send_take {i : Instr} (hwf : i.wf = true) {s : State} {host : List HostMove} (hidle : s.phase = .idle)
    (hg : s.grain = .command) (hrx : s.rx = []) (hh : s.host = .send (encode i) :: .take :: host) :
    ∃ t, (∀ n, run (n + 2) s = run n t) ∧ t.phase = .idle ∧ t.grain = .command ∧ t.rx = [] ∧ t.host = host ∧
      t.params = s.params ∧ t.taken = s.taken ++ [(responseOf s.params i).packet] := by
  obtain ⟨u, hx, hphase, hresp, ⟨hp, hg', hh', ht⟩, hrx'⟩ :=
    exec_offers_execRef hwf (s := { s with host := .take :: host }) hidle
  have hsend := (step_send_packet hwf hidle hg hrx hh).trans hx
  refine ⟨takeResponse { u with host := host }, fun n => ?_, rfl, hg'.trans hg, hrx'.trans hrx, rfl, hp, ?_⟩
  · rw [run_succ (n + 1) hsend, run_succ n (step_take hphase hh')]
  · show u.taken ++ [u.response.packet] = _
    rw [ht, hresp]

/-- Settles O49, by induction on the commands: each takes two steps, the send and the take. -/
theorem historyIsSequential : Obligations.HistoryIsSequential := by
  intro cmds
  induction cmds with
  | nil => exact fun s _ hidle _ hrx hh => ⟨s, rfl, hidle, hh, hrx, by simp⟩
  | cons i cmds ih =>
    intro s hwf hidle hg hrx hh
    obtain ⟨hi, hcmds⟩ := List.forall_mem_cons.1 hwf
    obtain ⟨u, hrun, hidle', hg', hrx', hh', hp, ht⟩ := run_send_take hi hidle hg hrx hh
    obtain ⟨t, hrun', hidle'', hh'', hrx'', ht'⟩ := ih u hcmds hidle' hg' hrx' hh'
    refine ⟨t, (hrun _).trans hrun', hidle'', hh'', hrx'', ?_⟩
    rw [ht', ht, hp]
    simp

/-! ### The bytes of a result -/

/-- The first bit of a sequence of n + 1 bits has weight 2^n (00_scope.md R10). -/
theorem two_pow_le_uint_iff {b : Bits} {n : Nat} (h : b.length = n + 1) : 2 ^ n ≤ uint b ↔ b[0]? = some true := by
  obtain ⟨x, xs, rfl⟩ := List.exists_cons_of_length_eq_add_one h
  obtain rfl : xs.length = n := Nat.succ.inj h
  have hlt := uint_lt xs
  rw [uint_cons, List.getElem?_cons_zero]
  cases x with
  | false => simpa using hlt
  | true => simp

/-- A sequence of bits has as many byte values as it takes bytes. -/
theorem byteValues_length (b : Bits) : (byteValues b).length = nb b.length := by simp [byteValues]

/-- A byte value whose eight bits are all in the sequence is their unsigned value (20_memory.md R55). -/
theorem byteValues_getElem? {b : Bits} {m : Nat} (h : 8 * m + 8 ≤ b.length) :
    (byteValues b)[m]? = some (uint ((b.drop (8 * m)).take 8)) := by
  have hlen : ((b.drop (8 * m)).take 8).length = 8 := by simp; omega
  have hm : m < nb b.length := by simp only [nb]; omega
  have hpad : zeropad 8 ((b.drop (8 * m)).take 8) = (b.drop (8 * m)).take 8 := by simp [zeropad, hlen]
  rw [byteValues, List.getElem?_map, packBits, packGo_getElem? _ _ _ hm, hpad, Option.map_some, ofBits_toNat _ hlen]

/-- Settles O56: byte m is the value of eight bits, of which the first has weight 2^7. -/
theorem resultBytesMsbFirst : Obligations.ResultBytesMsbFirst := by
  intro out m hdvd hm
  have hlen : ((out.drop (8 * m)).take 8).length = 7 + 1 := by simp; omega
  have hbyte := byteValues_getElem? (b := out) (m := m) (by omega)
  have hfirst : ((out.drop (8 * m)).take 8)[0]? = out[8 * m]? := by simp
  refine ⟨by rw [byteValues_length, nb]; omega, hbyte, _, hbyte, ?_, ?_⟩
  · have := uint_lt ((out.drop (8 * m)).take 8)
    rw [hlen] at this
    omega
  · exact hfirst ▸ two_pow_le_uint_iff hlen

end Sys2Proof.Machine
end

section
/-! PROOFS. The encoding family of statements, packets (30_encoding.md R80 to R90): the packets the decoder reads and
those that are not complete yet, and what a step does with the bytes received. -/

namespace Sys2Proof.Machine

open Sys2Proof.Claims

/-! ### Packets -/

/-- Settles O1: each operand field is read back whole (`decode_encode_append`). -/
theorem decodeOfEncode : Obligations.DecodeOfEncode := fun _ rest h => decode_encode_append h rest

/-- Settles O2: the three fields are read one after the other (`readOperand_raw`), and the command byte chooses
nothing but the constructor. -/
theorem decodeReadsRawPacket : Obligations.DecodeReadsRawPacket := by
  rintro cmd klen vlen dlen kf vf df rest ⟨hk, hkf⟩ ⟨hv, hvf⟩ ⟨hd, hdf⟩
  simp only [rawPacket, List.cons_append, List.append_assoc, decode, readOperand_raw _ _ _ hk hkf,
    readOperand_raw _ _ _ hv hvf, readOperand_raw _ _ _ hd hdf]

/-- An operand read from its field has the length that the field gives. -/
theorem take_unpack_length {len : Nat} {field : List Byte} (h : FieldOf len field) :
    ((unpackBits field).take len).length = len := by
  obtain ⟨-, hf⟩ := h
  rw [List.length_take, unpackBits_length, hf, nb]
  omega

/-- Bit j of an operand is bit 7 - ((j-1) mod 8) of byte floor((j-1)/8) of its field (30_encoding.md R85). -/
theorem take_unpack_getElem? (field : List Byte) {len j : Nat} (hpos : 1 ≤ j) (hj : j ≤ len) :
    ((unpackBits field).take len)[j - 1]? = (field[(j - 1) / 8]?).map fun b => b.getLsbD (7 - (j - 1) % 8) := by
  rw [List.getElem?_take_of_lt (by omega), unpack_getElem?]

/-- Settles O3: the packet decodes to the first LEN bits of each field, which are placed as R85 says and are all that
the decoder keeps of it. -/
theorem operandBitPlacement : Obligations.OperandBitPlacement := by
  intro cmd klen vlen dlen kf vf df kf' vf' df' hk hv hd hk' hv' hd'
  have hdec := decodeReadsRawPacket cmd klen vlen dlen kf vf df [] hk hv hd
  have hdec' := decodeReadsRawPacket cmd klen vlen dlen kf' vf' df' [] hk' hv' hd'
  rw [List.append_nil] at hdec hdec'
  refine ⟨⟨_, hdec, ?_⟩, fun ek ev ed => by rw [hdec, hdec', ek, ev, ed]⟩
  obtain ⟨-, hkey, hiv, hdata⟩ :=
    commandOf_fields cmd ((unpackBits kf).take klen) ((unpackBits vf).take vlen) ((unpackBits df).take dlen)
  rw [hkey, hiv, hdata]
  exact ⟨take_unpack_length hk, take_unpack_length hv, take_unpack_length hd, fun _ => take_unpack_getElem? kf,
    fun _ => take_unpack_getElem? vf, fun _ => take_unpack_getElem? df⟩

/-- Settles O4, by the rows of R82 that the byte can meet. -/
theorem commandByteSelectsOperation : Obligations.CommandByteSelectsOperation := by
  intro cmd k v d
  refine ⟨?_, ?_, ?_, ?_, fun h => ?_⟩
  · rintro rfl; rfl
  · rintro rfl; rfl
  · rintro rfl; rfl
  · rintro rfl; rfl
  · rw [commandOf, (opcodeOf_eq_none cmd).2 h]

/-- A decoded command is well formed where its operands fit their length fields. -/
theorem commandOf_wf (c : Byte) {k v d : Bits} (hk : operandFits k) (hv : operandFits v) (hd : operandFits d) :
    (commandOf c k v d).wf = true := by
  rcases opcodeOf_cases c with ⟨-, h⟩ | ⟨-, h⟩ | ⟨-, h⟩ | ⟨-, h⟩ | ⟨hc, h⟩ <;>
    simp_all [commandOf, Instr.wf]

/-- Settles O6, by running the decoder on the five packets. -/
theorem samplePacketsDecode : Obligations.SamplePacketsDecode := by
  unfold Obligations.SamplePacketsDecode
  decide +kernel

/-! ### What a step does with the bytes received -/

/-- A proper prefix of a packet is not complete: it ends in the command byte or in one of the three operand fields
(30_encoding.md R90). -/
theorem decode_prefix_rawPacket {cmd : Byte} {klen vlen dlen : Nat} {kf vf df bs more : List Byte}
    (hk : FieldOf klen kf) (hv : FieldOf vlen vf) (hd : FieldOf dlen df) (hm : more ≠ [])
    (h : bs ++ more = rawPacket cmd klen kf vlen vf dlen df) : ∃ e, decode bs = .error e := by
  cases bs with
  | nil => exact ⟨_, rfl⟩
  | cons c bs =>
    obtain ⟨-, h⟩ := List.cons.inj h
    rcases readOperand_prefix_cases hk.1 hk.2 hm h with hread | ⟨bs, hread, h⟩
    · exact ⟨.keyIncomplete, by simp only [decode, hread]⟩
    rcases readOperand_prefix_cases hv.1 hv.2 hm h with hread' | ⟨bs, hread', h⟩
    · exact ⟨.ivIncomplete, by simp only [decode, hread, hread']⟩
    have hread'' := readOperand_prefix hd.1 hd.2 hm h
    exact ⟨.dataIncomplete, by simp only [decode, hread, hread', hread'']⟩

/-- Without a complete packet no command is fetched. -/
theorem fetch_none_of_decode {s : State} {e : DecodeError} (h : decode s.rx = .error e) : fetch s = none := by
  simp [fetch, h]

/-- The complete packet at the head of the bytes received is fetched, in IDLE at the grain of commands. -/
theorem fetch_of_decode {s : State} {i : Instr} {rest : List Byte} (hidle : s.phase = .idle)
    (hg : s.grain = .command) (h : decode s.rx = .ok (i, rest)) : fetch s = some (i, { s with rx := rest }) := by
  simp [fetch, hidle, hg, h]

/-- Settles O5: what is received does not decode, so nothing is fetched and the accept transition waits. -/
theorem incompletePacketWaits : Obligations.IncompletePacketWaits := by
  intro s cmd klen vlen dlen kf vf df more hk hv hd hm h hidle hh
  obtain ⟨e, hdec⟩ := decode_prefix_rawPacket hk hv hd hm h
  simp only [step, turn_nil hh, fetch_none_of_decode hdec, seqStep_idle hidle, stepIdle, hdec]

/-- Where the core moves in IDLE at the grain of commands, it runs the command it has received whole. -/
theorem step_of_turn_core {s t : State} {i : Instr} {rest : List Byte} (ht : turn s = .core t)
    (hidle : t.phase = .idle) (hg : t.grain = .command) (h : decode t.rx = .ok (i, rest)) :
    step s = exec i { t with rx := rest } := by
  simp only [step, ht, fetch_of_decode hidle hg h]

/-- Settles O12, by the host's move: each of the four leaves the turn to the core. -/
theorem stepRunsDecodedCommand : Obligations.StepRunsDecodedCommand := by
  intro s i rest bs h hidle hg
  refine ⟨fun hh hdec => ?_, fun hh hdec => ?_, fun hh hdec => ?_, fun hh hdec => ?_⟩
  · exact step_of_turn_core (t := s) (turn_nil hh) hidle hg hdec
  · have ht : turn s = .core { s with host := h } := by simp [turn, hh]
    exact step_of_turn_core ht hidle hg hdec
  · have ht : turn s = .core s := by simp [turn, hh, hidle]
    exact step_of_turn_core ht hidle hg hdec
  · have ht : turn s = .core { s with host := h, rx := s.rx ++ bs } := by simp [turn, hh, hidle]
    rw [step_of_turn_core ht hidle hg hdec]

/-- Settles O13: the step is the take transition (`step_take`), and OUT_LEN is the response's length field. -/
theorem takeGivesResponsePacket : Obligations.TakeGivesResponsePacket := fun s _ hresp hh =>
  ⟨outLenField s.outbuf, outLenField_length _, fun hlt => outLenField_of_lt hlt, step_take hresp hh⟩

end Sys2Proof.Machine
end

section
/-! PROOFS. The encoding family of statements, the assembler (30_encoding.md R91 to R93): what an operand's literal stands
for, and the command that a line's operands make, in any order. -/

namespace Sys2Proof.Machine.Assembler

open Sys2Proof.Claims

/-! ### Concatenation -/

/-- A piece that begins no pair of bars stays as it is. -/
theorem joinBars_cons {p : Piece} {ps : List Piece} (h : ∀ rs, p = .ch '|' → ps = .ch '|' :: rs → False) :
    joinBars (p :: ps) = p :: joinBars ps := joinBars.eq_2 p ps h

/-- Pieces that are no bar stand before the concatenation signs of the rest. -/
theorem joinBars_append_of_not_mem {ps : List Piece} (h : .ch '|' ∉ ps) (qs : List Piece) :
    joinBars (ps ++ qs) = ps ++ joinBars qs := by
  induction ps with
  | nil => rfl
  | cons p ps ih =>
    rw [List.mem_cons, not_or] at h
    rw [List.cons_append, joinBars_cons fun _ hp _ => h.1 hp.symm, ih h.2, List.cons_append]

/-- Without a bar no piece is joined with the next. -/
theorem joinBars_of_not_mem {ps : List Piece} (h : .ch '|' ∉ ps) : joinBars ps = ps := by
  simpa [joinBars] using joinBars_append_of_not_mem h []

/-- No bar is joined with one on the other side of a concatenation sign. -/
theorem joinBars_append_concatSign (ps qs : List Piece) :
    joinBars (ps ++ .ch concatSign :: qs) = joinBars ps ++ .ch concatSign :: joinBars qs := by
  have hsign : ∀ rs, joinBars (.ch concatSign :: rs) = .ch concatSign :: joinBars rs := fun rs =>
    joinBars_cons fun _ hp _ => absurd hp (by decide)
  induction ps using joinBars.induct with
  | case1 ps ih => simp only [List.cons_append, joinBars, ih]
  | case2 p ps hbars ih =>
    have hbars' : ∀ rs, p = .ch '|' → ps ++ .ch concatSign :: qs = .ch '|' :: rs → False := by
      intro rs hp hrs
      cases ps with
      | nil => exact absurd (List.cons.inj hrs).1 (by decide)
      | cons p' ps => exact hbars ps hp (by rw [(List.cons.inj hrs).1])
    rw [List.cons_append, joinBars_cons hbars', ih, joinBars_cons hbars, List.cons_append]
  | case3 => exact hsign qs

/-- A sequence has at least one part. -/
theorem splitOn_ne_nil (sep : Piece) (ps : List Piece) : splitOn sep ps ≠ [] := by
  cases ps with
  | nil => simp [splitOn]
  | cons p ps =>
    rw [splitOn]
    split
    · simp
    · split <;> simp

/-- The parts on both sides of a separator. -/
theorem splitOn_append_cons (sep : Piece) (ps qs : List Piece) :
    splitOn sep (ps ++ sep :: qs) = splitOn sep ps ++ splitOn sep qs := by
  induction ps with
  | nil => simp [splitOn]
  | cons p ps ih =>
    rw [List.cons_append, splitOn, splitOn, ih]
    split
    · rfl
    · cases hparts : splitOn sep ps with
      | nil => exact absurd hparts (splitOn_ne_nil sep ps)
      | cons part parts => rfl

/-- The bits of parts in a row are those of the first and those of the others. -/
theorem concatBits_cons_eq_ok {part : List Piece} {parts : List (List Piece)} {b : Bits} :
    concatBits (part :: parts) = .ok b ↔
      ∃ b₁ b₂, atomBits part = .ok b₁ ∧ concatBits parts = .ok b₂ ∧ b = b₁ ++ b₂ := by
  rw [concatBits]
  cases atomBits part <;> cases concatBits parts <;> simp [eq_comm]

/-- The bits of two sequences of parts stand in order. -/
theorem concatBits_append {ps qs : List (List Piece)} {a b : Bits} (hp : concatBits ps = .ok a)
    (hq : concatBits qs = .ok b) : concatBits (ps ++ qs) = .ok (a ++ b) := by
  induction ps generalizing a with
  | nil => cases hp; exact hq
  | cons p ps ih =>
    obtain ⟨a₁, a₂, hatom, hrest, rfl⟩ := concatBits_cons_eq_ok.1 hp
    exact concatBits_cons_eq_ok.2 ⟨a₁, a₂ ++ b, hatom, ih hrest, List.append_assoc ..⟩

/-- An operand with neither concatenation sign is one literal. -/
theorem operandBits_eq_atomBits {ps : List Piece} (hbar : .ch '|' ∉ ps) (hsign : .ch concatSign ∉ ps) :
    operandBits ps = atomBits ps := by
  rw [operandBits, joinBars_of_not_mem hbar, splitOn_of_not_mem hsign, concatBits, concatBits]
  cases atomBits ps <;> simp

/-- The concatenation sign joins the bits of two operands (30_encoding.md R92). -/
theorem operandBits_append_concatSign {ps qs : List Piece} {a b : Bits} (hp : operandBits ps = .ok a)
    (hq : operandBits qs = .ok b) : operandBits (ps ++ .ch concatSign :: qs) = .ok (a ++ b) := by
  rw [operandBits, joinBars_append_concatSign, splitOn_append_cons]
  exact concatBits_append hp hq

/-- Two bars are a concatenation sign (R92). -/
theorem operandBits_append_bars {ps : List Piece} (h : .ch '|' ∉ ps) (qs : List Piece) :
    operandBits (ps ++ .ch '|' :: .ch '|' :: qs) = operandBits (ps ++ .ch concatSign :: qs) := by
  rw [operandBits, operandBits, joinBars_append_of_not_mem h, joinBars_append_concatSign, joinBars_of_not_mem h,
    joinBars]

/-! ### One literal -/

/-- Digits with their values stand for those values, `n` bits each. -/
theorem digitBits_map {α : Type} {n : Nat} {value : Char → Option Nat} {digit : α → Char} {val : α → Nat}
    {xs : List α} (h : ∀ x ∈ xs, value (digit x) = some (val x)) :
    digitBits n value (xs.map fun x => .ch (digit x)) = .ok (xs.flatMap fun x => bitsN n (val x)) := by
  induction xs with
  | nil => rfl
  | cons x xs ih =>
    obtain ⟨hx, hxs⟩ := List.forall_mem_cons.1 h
    rw [List.map_cons, digitBits, hx]
    simp only [ih hxs, Except.map, List.flatMap_cons]

/-- A literal of digits is read by its prefix, as it has no concatenation sign. -/
theorem operandBits_digits {α : Type} {value : Char → Option Nat} {digit : α → Char} {val : α → Nat}
    {xs : List α} {base : Char} (hbase : base ≠ '|' ∧ base ≠ concatSign)
    (hvalue : value '|' = none ∧ value concatSign = none) (h : ∀ x ∈ xs, value (digit x) = some (val x)) :
    operandBits (.ch '0' :: .ch base :: xs.map fun x => .ch (digit x)) =
      atomBits (.ch '0' :: .ch base :: xs.map fun x => .ch (digit x)) := by
  have hne : ∀ c, c ≠ '0' → base ≠ c → value c = none →
      .ch c ∉ (.ch '0' :: .ch base :: xs.map fun x => .ch (digit x) : List Piece) := by
    intro c hzero hb hc hmem
    simp only [List.mem_cons, List.mem_map, Piece.ch.injEq] at hmem
    rcases hmem with rfl | rfl | ⟨x, hx, rfl⟩
    · exact hzero rfl
    · exact hb rfl
    · rw [h x hx] at hc
      cases hc
  exact operandBits_eq_atomBits (hne _ (by decide) hbase.1 hvalue.1) (hne _ (by decide) hbase.2 hvalue.2)

/-- The hexadecimal digits have their values. -/
theorem hexDigit_hexDigits : ∀ d < 16, hexDigit (hexDigits.getD d ' ') = some d := by decide

/-- The binary digits have their values. -/
theorem binDigit_bit (b : Bool) : binDigit (if b then '1' else '0') = some b.toNat := by cases b <;> rfl

/-- One bit is its own one-bit sequence. -/
theorem bitsN_one (b : Bool) : bitsN 1 b.toNat = [b] := by cases b <;> rfl

/-- A text literal is one literal. -/
theorem operandBits_text (cs : List Char) : operandBits [.text cs] = textBits cs :=
  operandBits_eq_atomBits (by simp) (by simp)

/-- Each character of a text literal is eight bits (R92). -/
theorem textBits_eq_ok {cs : List Char} (h : ∀ c ∈ cs, c.toNat ≤ 255) :
    textBits cs = .ok (cs.flatMap fun c => bitsN 8 c.toNat) := by
  induction cs with
  | nil => rfl
  | cons c cs ih =>
    obtain ⟨hc, hcs⟩ := List.forall_mem_cons.1 h
    rw [textBits, if_pos hc, ih hcs, Except.map, List.flatMap_cons]

/-- A character outside 0..255 is refused wherever it stands (R92). -/
theorem textBits_eq_error {cs : List Char} (h : ∃ c ∈ cs, 255 < c.toNat) :
    textBits cs = .error .characterOutsideByte := by
  induction cs with
  | nil => simp at h
  | cons c cs ih =>
    by_cases hc : c.toNat ≤ 255
    · have hcs : ∃ c ∈ cs, 255 < c.toNat :=
        (List.exists_mem_cons_iff ..).1 h |>.resolve_left (by omega)
      rw [textBits, if_pos hc, ih hcs, Except.map]
    · rw [textBits, if_neg hc]

/-- Settles O7, literal by literal; a bar pair is read as the concatenation sign, which joins the parts on its two
sides. -/
theorem operandLiteralBits : Obligations.OperandLiteralBits := by
  refine ⟨fun x xs h => ?_, fun b bs => ?_, fun cs h => ?_, fun cs h => ?_, by decide, fun ps qs a b hp hq => ?_⟩
  · have hval : ∀ d ∈ x :: xs, hexDigit (hexDigits.getD d ' ') = some d := fun d hd => hexDigit_hexDigits d (h d hd)
    exact (operandBits_digits (by decide) (by decide) hval).trans (digitBits_map hval)
  · have hval : ∀ d ∈ b :: bs, binDigit (if d then '1' else '0') = some d.toNat := fun d _ => binDigit_bit d
    have hbits := (operandBits_digits (base := 'b') (by decide) (by decide) hval).trans (digitBits_map (n := 1) hval)
    simpa only [bitsN_one, List.flatMap_singleton'] using hbits
  · rw [operandBits_text, textBits_eq_ok h]
  · rw [operandBits_text, textBits_eq_error h]
  · have hjoin := operandBits_append_concatSign hp hq
    exact ⟨hjoin, fun hbar => (operandBits_append_bars hbar qs).trans hjoin⟩

/-! ### The operands of a line -/

/-- The three operands that a line can write (30_encoding.md R91). -/
inductive Slot where
  | key
  | iv
  | data

/-- The name before the `=` of an operand. -/
def Slot.name : Slot → List Char
  | .key => ['k', 'e', 'y']
  | .iv => ['i', 'v']
  | .data => ['d', 'a', 't', 'a']

/-- An operand as written so far. -/
def Written.get (w : Written) : Slot → Option Bits
  | .key => w.key
  | .iv => w.iv
  | .data => w.data

/-- The operands with one of them written. -/
def Written.set (w : Written) (o : Option Bits) : Slot → Written
  | .key => { w with key := o }
  | .iv => { w with iv := o }
  | .data => { w with data := o }

theorem Written.get_set_same (w : Written) (o : Option Bits) (s : Slot) : (w.set o s).get s = o := by
  cases s <;> rfl

theorem Written.get_set_ne (w : Written) (o : Option Bits) {s t : Slot} (h : s ≠ t) : (w.set o s).get t = w.get t := by
  cases s <;> cases t <;> simp [Written.get, Written.set] at h ⊢

theorem Written.set_comm (w : Written) (o o' : Option Bits) {s t : Slot} (h : s ≠ t) :
    (w.set o s).set o' t = (w.set o' t).set o s := by
  cases s <;> cases t <;> simp [Written.set] at h ⊢

theorem Written.set_of_get_eq {w : Written} {o : Option Bits} {s : Slot} (h : w.get s = o) : w.set o s = w := by
  subst h
  cases s <;> rfl

/-- What one item writes: the bits of its literal, to the operand of its name, which nothing has written before. -/
theorem writeOperand_eq_ok {w w' : Written} {item : List Piece} :
    writeOperand w item = .ok w' ↔ ∃ s b, (nameAndOperand item).1 = word s.name ∧
      operandBits (nameAndOperand item).2 = .ok b ∧ w.get s = none ∧ w' = w.set (some b) s := by
  constructor
  · intro h
    unfold writeOperand at h
    split at h
    · cases h
    rename_i b hb
    split at h
    · split at h
      · exact ⟨.key, b, ‹_›, hb, Option.isNone_iff_eq_none.1 ‹_›, (Except.ok.inj h).symm⟩
      · cases h
    split at h
    · split at h
      · exact ⟨.iv, b, ‹_›, hb, Option.isNone_iff_eq_none.1 ‹_›, (Except.ok.inj h).symm⟩
      · cases h
    split at h
    · split at h
      · exact ⟨.data, b, ‹_›, hb, Option.isNone_iff_eq_none.1 ‹_›, (Except.ok.inj h).symm⟩
      · cases h
    · cases h
  · rintro ⟨s, b, hname, hb, hget, rfl⟩
    rw [writeOperand, hname, hb]
    cases s <;> simp_all [Slot.name, word, Written.get, Written.set]

/-- Two items write the same in either order. -/
theorem writeOperand_comm {w w₁ w₂ : Written} {x y : List Piece} (hx : writeOperand w x = .ok w₁)
    (hy : writeOperand w₁ y = .ok w₂) : ∃ w₁', writeOperand w y = .ok w₁' ∧ writeOperand w₁' x = .ok w₂ := by
  obtain ⟨s, a, hs, ha, hws, rfl⟩ := writeOperand_eq_ok.1 hx
  obtain ⟨t, b, ht, hb, hwt, rfl⟩ := writeOperand_eq_ok.1 hy
  have hne : s ≠ t := by
    rintro rfl
    rw [Written.get_set_same] at hwt
    cases hwt
  rw [Written.get_set_ne _ _ hne] at hwt
  refine ⟨w.set (some b) t, writeOperand_eq_ok.2 ⟨t, b, ht, hb, hwt, rfl⟩,
    writeOperand_eq_ok.2 ⟨s, a, hs, ha, ?_, Written.set_comm _ _ _ hne⟩⟩
  rwa [Written.get_set_ne _ _ hne.symm]

/-- The items of a line one after the other. -/
theorem writeOperands_cons_eq_ok {w w' : Written} {item : List Piece} {its : List (List Piece)} :
    writeOperands w (item :: its) = .ok w' ↔ ∃ u, writeOperand w item = .ok u ∧ writeOperands u its = .ok w' := by
  rw [writeOperands]
  cases writeOperand w item <;> simp

/-- The order of a line's items does not matter (30_encoding.md R91). -/
theorem writeOperands_perm {its its' : List (List Piece)} (hperm : its.Perm its') {w w' : Written}
    (h : writeOperands w its = .ok w') : writeOperands w its' = .ok w' := by
  induction hperm generalizing w with
  | nil => exact h
  | cons item _ ih =>
    obtain ⟨u, hitem, hrest⟩ := writeOperands_cons_eq_ok.1 h
    exact writeOperands_cons_eq_ok.2 ⟨u, hitem, ih hrest⟩
  | swap x y its =>
    obtain ⟨u, hy, hrest⟩ := writeOperands_cons_eq_ok.1 h
    obtain ⟨v, hx, hrest⟩ := writeOperands_cons_eq_ok.1 hrest
    obtain ⟨u', hx', hy'⟩ := writeOperand_comm hy hx
    exact writeOperands_cons_eq_ok.2 ⟨u', hx', writeOperands_cons_eq_ok.2 ⟨v, hy', hrest⟩⟩
  | trans _ _ ih₁ ih₂ => exact ih₂ (ih₁ h)

/-- The command of a byte and the written operands, where the operands fit their length fields. -/
theorem commandOfWritten_eq_ok {cmd : Byte} {its : List (List Piece)} {i : Instr} :
    commandOfWritten cmd its = .ok i ↔ ∃ w, writeOperands ⟨none, none, none⟩ its = .ok w ∧
      i = commandOf cmd (w.key.getD []) (w.iv.getD []) (w.data.getD []) ∧ i.wf = true := by
  rw [commandOfWritten]
  cases writeOperands ⟨none, none, none⟩ its with
  | error e => simp
  | ok w =>
    simp only [Except.ok.injEq, exists_eq_left']
    split
    · exact ⟨fun h => ⟨(Except.ok.inj h).symm, by rwa [← Except.ok.inj h]⟩, fun h => by rw [h.1]⟩
    · exact ⟨nofun, fun h => absurd (h.1 ▸ h.2) ‹_›⟩

/-- Settles O8: the items of a permuted line write the same operands. -/
theorem operandOrderDoesNotMatter : Obligations.OperandOrderDoesNotMatter := by
  intro cmd its its' i h hperm
  obtain ⟨w, hw, hi⟩ := commandOfWritten_eq_ok.1 h
  exact commandOfWritten_eq_ok.2 ⟨w, writeOperands_perm hperm hw, hi⟩

/-! ### The command of a line -/

/-- An operand as written, or not written, goes to its place and leaves the other items to be read. -/
theorem writeOperands_append_of_writtenAs {s : Slot} {item : Option (List Piece)} {b : Bits}
    (h : WrittenAs s.name item b) {w : Written} (hw : w.get s = none) :
    ∃ o : Option Bits, o.getD [] = b ∧
      ∀ its, writeOperands w (item.toList ++ its) = writeOperands (w.set o s) its := by
  obtain ⟨-, ⟨rfl, rfl⟩ | ⟨ps, rfl, -, hb⟩⟩ := h
  · exact ⟨none, rfl, fun its => by rw [Written.set_of_get_eq hw]; rfl⟩
  · have hname : '=' ∉ s.name := by cases s <;> decide
    have hitem : writeOperand w (word s.name ++ .ch '=' :: ps) = .ok (w.set (some b) s) :=
      writeOperand_eq_ok.2 ⟨s, b, by rw [nameAndOperand_word hname], by rwa [nameAndOperand_word hname], hw, rfl⟩
    exact ⟨some b, rfl, fun its => by rw [Option.toList_some, List.singleton_append, writeOperands, hitem]⟩

/-- The operands of a line, in any order, make the command of its byte. -/
theorem commandOfWritten_of_writtenAs {k v d : Option (List Piece)} {kb vb db : Bits} {its : List (List Piece)}
    (hk : WrittenAs ['k', 'e', 'y'] k kb) (hv : WrittenAs ['i', 'v'] v vb) (hd : WrittenAs ['d', 'a', 't', 'a'] d db)
    (hperm : its.Perm (k.toList ++ v.toList ++ d.toList)) (cmd : Byte) :
    commandOfWritten cmd its = .ok (commandOf cmd kb vb db) := by
  obtain ⟨ko, hko, hkey⟩ := writeOperands_append_of_writtenAs (s := .key) hk (w := ⟨none, none, none⟩) rfl
  obtain ⟨vo, hvo, hiv⟩ := writeOperands_append_of_writtenAs (s := .iv) hv (w := ⟨ko, none, none⟩) rfl
  obtain ⟨dd, hdo, hdata⟩ := writeOperands_append_of_writtenAs (s := .data) hd (w := ⟨ko, vo, none⟩) rfl
  have hw : writeOperands ⟨none, none, none⟩ (k.toList ++ v.toList ++ d.toList) = .ok ⟨ko, vo, dd⟩ := by
    rw [List.append_assoc]
    refine (hkey _).trans ((hiv _).trans ?_)
    rw [← List.append_nil d.toList]
    exact hdata []
  refine operandOrderDoesNotMatter cmd _ its _ (commandOfWritten_eq_ok.2 ⟨_, hw, ?_, ?_⟩) hperm.symm
  · rw [hko, hvo, hdo]
  · exact commandOf_wf cmd hk.1 hv.1 hd.1

/-! ### The pieces of a line -/

/-- What is mapped from a sequence with separators is the mapped parts with the mapped separators. -/
theorem flatMap_intercalate {α β : Type} (f : α → List β) (sep : List α) (ls : List (List α)) :
    (sep.intercalate ls).flatMap f = (sep.flatMap f).intercalate (ls.map fun l => l.flatMap f) := by
  induction ls using List.twoStepInduction with
  | nil => simp
  | singleton l => simp
  | cons_cons l l' ls _ ih => simp [List.intercalate_cons_cons, ih]

/-- So for what is kept of a sequence with separators. -/
theorem filter_intercalate {α : Type} (p : α → Bool) (sep : List α) (ls : List (List α)) :
    (sep.intercalate ls).filter p = (sep.filter p).intercalate (ls.map fun l => l.filter p) := by
  induction ls using List.twoStepInduction with
  | nil => simp
  | singleton l => simp
  | cons_cons l l' ls _ ih => simp [List.intercalate_cons_cons, ih]

/-- What holds in the separator and in every part holds in the whole sequence. -/
theorem forall_mem_intercalate {α : Type} {P : α → Prop} {sep : List α} {ls : List (List α)} (hsep : ∀ x ∈ sep, P x)
    (h : ∀ l ∈ ls, ∀ x ∈ l, P x) : ∀ x ∈ sep.intercalate ls, P x := by
  induction ls using List.twoStepInduction with
  | nil => simp
  | singleton l => simpa using h
  | cons_cons l l' ls _ ih =>
    obtain ⟨hl, hls⟩ := List.forall_mem_cons.1 h
    rw [List.intercalate_cons_cons]
    simp only [List.forall_mem_append]
    exact ⟨⟨hl, hsep⟩, ih l' hls⟩

/-- Parts without the separator are what a sequence splits into. -/
theorem splitOn_intercalate {sep : Piece} {ls : List (List Piece)} (hne : ls ≠ []) (h : ∀ l ∈ ls, sep ∉ l) :
    splitOn sep ([sep].intercalate ls) = ls := by
  induction ls using List.twoStepInduction with
  | nil => exact absurd rfl hne
  | singleton l => simpa using splitOn_of_not_mem (h l (by simp))
  | cons_cons l l' ls _ ih =>
    obtain ⟨hl, hls⟩ := List.forall_mem_cons.1 h
    rw [List.intercalate_cons_cons, List.append_assoc, List.singleton_append, splitOn_append_of_not_mem hl,
      ih l' (List.cons_ne_nil _ _) hls]

/-- Items that are not empty and have no comma are read back from between their commas. -/
theorem items_intercalate {its : List (List Piece)} (h : ∀ it ∈ its, it ≠ [] ∧ .ch ',' ∉ it) :
    items ([.ch ','].intercalate its) = its := by
  cases its with
  | nil => rfl
  | cons it its =>
    have hne : [Piece.ch ','].intercalate (it :: its) ≠ [] := by
      have hit := (h it (by simp)).1
      cases its <;> simp [List.intercalate_cons_cons, hit]
    rw [items, if_neg hne]
    exact splitOn_intercalate (List.cons_ne_nil _ _) fun l hl => (h l hl).2

/-- A piece that its own text is read back to: a character that begins no comment and no text literal, or a text
literal with no quotation mark inside. -/
def ReadBack : Piece → Prop
  | .ch c => c ≠ ';' ∧ c ≠ quote
  | .text cs => quote ∉ cs

/-- A line written from such pieces is read as those pieces. -/
theorem pieces_flatMap_pieceText {ps : List Piece} (h : ∀ p ∈ ps, ReadBack p) :
    pieces (ps.flatMap pieceText) none = .ok ps := by
  induction ps with
  | nil => rfl
  | cons p ps ih =>
    obtain ⟨hp, hps⟩ := List.forall_mem_cons.1 h
    rw [List.flatMap_cons]
    cases p with
    | ch c =>
      obtain ⟨hcomment, hquote⟩ := hp
      rw [pieceText, List.singleton_append, pieces_ch hcomment hquote, ih hps, Except.map]
    | text cs =>
      rw [pieceText, List.cons_append, List.append_assoc, List.singleton_append, pieces_quoted hp, ih hps, Except.map]

/-- A piece of an operand is read back. -/
theorem readBack_of_plainPiece {p : Piece} (h : PlainPiece p) : ReadBack p := by
  cases p with
  | text cs => exact h
  | ch c =>
    obtain ⟨-, -, -, hcomment, hquote⟩ := h
    exact ⟨hcomment, hquote⟩

/-- A piece of an operand is not blank. -/
theorem blank_of_plainPiece {p : Piece} (h : PlainPiece p) : p.blank = false := by
  cases p with
  | text cs => rfl
  | ch c =>
    obtain ⟨hspace, htab, -⟩ := h
    simp [Piece.blank, isBlank, hspace, htab]

/-- A comma is no piece of an operand. -/
theorem not_plainPiece_comma : ¬ PlainPiece (.ch ',') := fun ⟨_, _, hcomma, _⟩ => hcomma rfl

/-- An item of a line that is read back whole. -/
def PlainItem (it : List Piece) : Prop := it ≠ [] ∧ ∀ p ∈ it, PlainPiece p

/-- Whether a character is a piece of an operand (`PlainPiece`). -/
def isPlainChar (c : Char) : Bool := c != ' ' && c != '\t' && c != ',' && c != ';' && c != quote

/-- A word of such characters is an item that is read back whole. -/
theorem plainItem_word {cs : List Char} (hne : cs ≠ []) (h : cs.all isPlainChar = true) : PlainItem (word cs) := by
  refine ⟨by simpa [word] using hne, fun p hp => ?_⟩
  obtain ⟨c, hc, rfl⟩ := List.mem_map.1 hp
  simpa [isPlainChar, PlainPiece, and_assoc] using List.all_eq_true.1 h c hc

/-- The pieces of `lineOf`. -/
def linePieces (first : List Char) (its : List (List Piece)) : List Piece :=
  word first ++ .ch ' ' :: [.ch ',', .ch ' '].intercalate its

/-- The pieces of a word write the word. -/
theorem flatMap_pieceText_word (cs : List Char) : (word cs).flatMap pieceText = cs := by
  simp [word, List.flatMap_map, pieceText]

/-- A line is the text of its pieces. -/
theorem lineOf_eq (first : List Char) (its : List (List Piece)) :
    lineOf first its = (linePieces first its).flatMap pieceText := by
  rw [linePieces, List.flatMap_append, flatMap_pieceText_word, List.flatMap_cons, flatMap_intercalate]
  rfl

section Line

variable {first : List Char} {its : List (List Piece)}

/-- Every piece of a line of plain items is read back. -/
theorem readBack_linePieces (hfirst : PlainItem (word first)) (hits : ∀ it ∈ its, PlainItem it) :
    ∀ p ∈ linePieces first its, ReadBack p := by
  have hspace : ReadBack (.ch ' ') := ⟨by decide, by decide⟩
  have hcomma : ReadBack (.ch ',') := ⟨by decide, by decide⟩
  rw [linePieces, List.forall_mem_append, List.forall_mem_cons]
  refine ⟨fun p hp => readBack_of_plainPiece (hfirst.2 p hp), hspace, forall_mem_intercalate ?_ ?_⟩
  · simpa using ⟨hcomma, hspace⟩
  · exact fun it hit p hp => readBack_of_plainPiece ((hits it hit).2 p hp)

/-- No piece of a plain item is blank. -/
theorem PlainItem.not_blank {it : List Piece} (h : PlainItem it) : ∀ p ∈ it, (!p.blank) = true := fun p hp => by
  rw [blank_of_plainPiece (h.2 p hp), Bool.not_false]

/-- The first word of a line ends at its first blank. -/
theorem takeWhile_linePieces (hfirst : PlainItem (word first)) :
    (linePieces first its).takeWhile (!·.blank) = word first := by
  rw [linePieces, List.takeWhile_append_of_pos hfirst.not_blank]
  simp [Piece.blank, isBlank]

/-- The items after the first word, with the blanks after the commas dropped. -/
theorem items_linePieces (hfirst : PlainItem (word first)) (hits : ∀ it ∈ its, PlainItem it) :
    items (((linePieces first its).dropWhile (!·.blank)).filter (!·.blank)) = its := by
  have hkeep : its.map (fun it => it.filter (!·.blank)) = its := by
    rw [List.map_congr_left fun it hit => List.filter_eq_self.2 (hits it hit).not_blank, List.map_id']
  have hdrop : (linePieces first its).dropWhile (!·.blank) = .ch ' ' :: [.ch ',', .ch ' '].intercalate its := by
    rw [linePieces, List.dropWhile_append_of_pos hfirst.not_blank]
    simp [Piece.blank, isBlank]
  have hblank : (.ch ' ' :: [Piece.ch ',', .ch ' '].intercalate its).filter (!·.blank) = [.ch ','].intercalate its := by
    rw [List.filter_cons_of_neg (by decide), filter_intercalate, hkeep]
    rfl
  rw [hdrop, hblank]
  exact items_intercalate fun it hit => ⟨(hits it hit).1, fun hmem => not_plainPiece_comma ((hits it hit).2 _ hmem)⟩

/-- A line is assembled from its pieces, as it begins with its first word. -/
theorem assemble_lineOf (hfirst : PlainItem (word first)) (hits : ∀ it ∈ its, PlainItem it) :
    assemble (lineOf first its) = (assemblePieces (linePieces first its)).map some := by
  have hread := pieces_flatMap_pieceText (readBack_linePieces hfirst hits)
  obtain ⟨c, cs, rfl⟩ : ∃ c cs, first = c :: cs :=
    List.exists_cons_of_ne_nil (by simpa [word] using hfirst.1)
  have hblank : Piece.blank (.ch c) = false := blank_of_plainPiece (hfirst.2 (.ch c) (by simp [word]))
  rw [assemble, lineOf_eq, hread]
  simp [linePieces, word, hblank]

/-- A line with a mnemonic is the command of the mnemonic's byte and its items. -/
theorem assemble_lineOf_mnemonic {cmd : Byte} (hm : mnemonicByte (word first) = some cmd)
    (hfirst : PlainItem (word first)) (hits : ∀ it ∈ its, PlainItem it) :
    assemble (lineOf first its) = (commandOfWritten cmd its).map some := by
  rw [assemble_lineOf hfirst hits, assemblePieces]
  simp only [takeWhile_linePieces hfirst, items_linePieces hfirst hits, hm]

/-- A line with `.cmd` is the command of the byte it writes and the items after it (30_encoding.md R93). -/
theorem assemble_lineOf_cmd {byte : List Piece} {cmd : Byte} (hbyte : operandBits byte = .ok (toBits cmd))
    (hplain : PlainItem byte) (hits : ∀ it ∈ its, PlainItem it) :
    assemble (lineOf ['.', 'c', 'm', 'd'] (byte :: its)) = (commandOfWritten cmd its).map some := by
  have hfirst : PlainItem (word ['.', 'c', 'm', 'd']) := plainItem_word (by decide) (by decide)
  have hits' : ∀ it ∈ byte :: its, PlainItem it := List.forall_mem_cons.2 ⟨hplain, hits⟩
  have hnone : mnemonicByte (word ['.', 'c', 'm', 'd']) = none := by decide
  rw [assemble_lineOf hfirst hits', assemblePieces]
  simp only [takeWhile_linePieces hfirst, items_linePieces hfirst hits', hnone, if_true, hbyte, toBits_length,
    ofBits_toBits]

end Line

/-- An operand as written is an item that is read back whole. -/
theorem plainItem_of_writtenAs {s : Slot} {item : Option (List Piece)} {b : Bits} (h : WrittenAs s.name item b) :
    ∀ it ∈ item.toList, PlainItem it := by
  obtain ⟨-, ⟨rfl, -⟩ | ⟨ps, rfl, hps, -⟩⟩ := h
  · simp
  · have hname : PlainItem (word s.name) := by cases s <;> exact plainItem_word (by decide) (by decide)
    have heq : PlainPiece (.ch '=') := ⟨by decide, by decide, by decide, by decide, by decide⟩
    rw [Option.toList_some, List.forall_mem_singleton]
    exact ⟨by simp, List.forall_mem_append.2 ⟨hname.2, List.forall_mem_cons.2 ⟨heq, hps⟩⟩⟩

/-- The mnemonics are plain words with the bytes of R82. -/
theorem mnemonicByte_of_mem {m : List Char} {cmd : Byte} (h : (m, cmd) ∈ mnemonics) :
    mnemonicByte (word m) = some cmd ∧ PlainItem (word m) := by
  have hbyte : ∀ e ∈ mnemonics, mnemonicByte (word e.1) = some e.2 := by decide
  have hplain : ∀ e ∈ mnemonics, e.1 ≠ [] ∧ e.1.all isPlainChar = true := by decide
  exact ⟨hbyte _ h, plainItem_word (hplain _ h).1 (hplain _ h).2⟩

/-- The command of a line's pieces is well formed. -/
theorem assemblePieces_wf {ps : List Piece} {i : Instr} (h : assemblePieces ps = .ok i) : i.wf = true := by
  simp only [assemblePieces] at h
  split at h
  · exact commandOfWritten_wf h
  split at h
  · split at h
    · cases h
    split at h
    · cases h
    split at h
    · exact commandOfWritten_wf h
    · cases h
  · cases h

/-- The command of a line is well formed. -/
theorem assemble_wf {line : List Char} {i : Instr} (h : assemble line = .ok (some i)) : i.wf = true := by
  unfold assemble at h
  split at h
  · cases h
  split at h
  · cases h
  · rename_i p ps _
    cases hi : assemblePieces (p :: ps) with
    | error e => rw [hi] at h; cases h
    | ok j =>
      rw [hi] at h
      cases h
      exact assemblePieces_wf hi

/-- Settles O9: an assembled command is well formed, so its packet decodes to it; and a line is read back as its first
word and its items (`assemble_lineOf`), which write the operands in any order. -/
theorem assembledLineDecodes : Obligations.AssembledLineDecodes := by
  refine ⟨fun line i h => by simpa using decode_encode_append (assemble_wf h) [],
    fun k v d kb vb db its hk hv hd hperm => ?_⟩
  have hcmd := commandOfWritten_of_writtenAs hk hv hd hperm
  have hits : ∀ it ∈ its, PlainItem it := by
    intro it hit
    have hmem := hperm.mem_iff.1 hit
    rw [List.mem_append, List.mem_append] at hmem
    rcases hmem with (hmem | hmem) | hmem
    · exact plainItem_of_writtenAs (s := .key) hk it hmem
    · exact plainItem_of_writtenAs (s := .iv) hv it hmem
    · exact plainItem_of_writtenAs (s := .data) hd it hmem
  refine ⟨fun m cmd hm => ?_, fun byte cmd hplain hbyte => ?_⟩
  · obtain ⟨hbyte, hfirst⟩ := mnemonicByte_of_mem hm
    rw [assemble_lineOf_mnemonic hbyte hfirst hits, hcmd, Except.map]
  · have hne : byte ≠ [] := by
      rintro rfl
      exact absurd hbyte nofun
    rw [assemble_lineOf_cmd hbyte ⟨hne, hplain⟩ hits, hcmd, Except.map]

end Sys2Proof.Machine.Assembler
end

section
/-! PROOFS. The key schedule family of statements (40_key_schedule.md): the steps KS_PC1 and KS_ROUND, the halves
after sixteen rounds, the parity bits, the keys with zero halves, and DERIVE_KEYS. -/

namespace Sys2Proof.Machine

open Sys2Proof.Config Sys2Proof.Claims

/-! ### The step KS_PC1 -/

/-- Bit j of `PERM(T, v)` is the bit of `v` that the table names there (00_scope.md R12). -/
theorem map_getMsbD_perm {m n : Nat} (T : List Nat) (v : BitVec m) (hT : T.length = n) {j : Nat} (h : j < n) :
    (T[j]?).map (fun e => v.getMsbD (e - 1)) = some ((perm n T v).getMsbD j) := by
  have hj : j < T.length := hT ▸ h
  rw [List.getElem?_eq_getElem hj, Option.map_some, getMsbD_perm T v hT j hj]

/-- `C0` holds the key bits that PC1[1..28] name (40_key_schedule.md R110). -/
theorem map_getMsbD_keyC0 (k : Block) {j : Nat} (h : j < 28) :
    (tablePC1[j]?).map (fun e => k.getMsbD (e - 1)) = some ((keyC0 k).getMsbD j) := by
  rw [keyC0, getMsbD_seg _ 1 28 j (by omega) h, Nat.sub_self, Nat.zero_add]
  exact map_getMsbD_perm (n := 56) tablePC1 k rfl (by omega)

/-- `D0` holds the key bits that PC1[29..56] name (R110). -/
theorem map_getMsbD_keyD0 (k : Block) {j : Nat} (h : j < 28) :
    (tablePC1[28 + j]?).map (fun e => k.getMsbD (e - 1)) = some ((keyD0 k).getMsbD j) := by
  rw [keyD0, getMsbD_seg _ 29 28 j (by omega) h]
  exact map_getMsbD_perm (n := 56) tablePC1 k rfl (by omega)

/-- Settles O23: `C0` and `D0` are the halves of `PERM(PC1, KEYREG)`. -/
theorem keyPermutationSelectsKeyBits : Obligations.KeyPermutationSelectsKeyBits := fun s hph hh =>
  ⟨stepKsPc1 s, (step_busy hh (by simp [hph])).trans (seqStep_ksPc1 hph),
    fun _ hj => ⟨map_getMsbD_keyC0 s.keyreg hj, map_getMsbD_keyD0 s.keyreg hj⟩, rfl⟩

/-! ### The step KS_ROUND -/

/-- Every rotation of the schedule is by less than the width of a half (R111). -/
theorem lt_of_mem_tableShifts : ∀ k ∈ tableShifts, k < 28 := by decide

/-- The command byte of DERIVE_KEYS is 01 (30_encoding.md R82). -/
theorem op_eq_deriveKeys_iff (s : State) : s.op = some .deriveKeys ↔ s.cmdreg = 0x01#8 := by
  rw [State.op]
  rcases opcodeOf_cases s.cmdreg with ⟨hc, ho⟩ | ⟨hc, ho⟩ | ⟨hc, ho⟩ | ⟨hc, ho⟩ | ⟨hc, ho⟩
  all_goals rw [ho]
  · simp [hc]
  · simp [hc]
  · simp [hc]
  · simp [hc]
  · refine iff_of_false nofun fun h => hc ?_
    rw [h]
    decide

/-- After a key-schedule round below the last one. -/
theorem afterKsRound_lt {s : State} (h : s.rnd.toNat < 16) :
    afterKsRound s = { s with rnd := s.rnd + 1#5, phase := .ksRound } := if_pos h

/-- What follows KS_ROUND writes neither of the key halves. -/
theorem afterKsRound_halves (s : State) : (afterKsRound s).c = s.c ∧ (afterKsRound s).d = s.d := by
  unfold afterKsRound
  repeat' split
  all_goals exact ⟨rfl, rfl⟩

/-- The entry that a key-schedule round writes (R113). -/
theorem rotateAndStore_ks_getElem {k m : Nat} {s : State} (hm : m < 16) (h : m + 1 = s.rnd.toNat) :
    (rotateAndStore k s).ks[m] = compress (rotateAndStore k s).c (rotateAndStore k s).d := by
  obtain rfl : s.rnd.toNat - 1 = m := by omega
  exact Vector.getElem_setIfInBounds_self hm

/-- The entries that a key-schedule round leaves (R113). -/
theorem rotateAndStore_ks_getElem_ne {k m : Nat} {s : State} (hm : m < 16) (h1 : 1 ≤ s.rnd.toNat)
    (h : m + 1 ≠ s.rnd.toNat) : (rotateAndStore k s).ks[m] = s.ks[m] :=
  Vector.getElem_setIfInBounds_ne hm (by omega : s.rnd.toNat - 1 ≠ m)

/-- Settles O24: the step is `rotateAndStore` by SHIFTS[RND] and then `afterKsRound`, which R116 splits in four. -/
theorem keyRoundRotatesAndStores : Obligations.KeyRoundRotatesAndStores := by
  intro s hph hh h1 h2
  obtain ⟨k, hk, hstep⟩ := stepKsRound_eq h1 h2
  have hk28 : k < 28 := lt_of_mem_tableShifts k (List.mem_of_getElem? hk)
  obtain ⟨hc, hd⟩ := afterKsRound_halves (rotateAndStore k s)
  obtain ⟨-, -, -, hks⟩ := afterKsRound_keeps (rotateAndStore k s)
  refine ⟨_, k, hk, (step_busy hh (by simp [hph])).trans ((seqStep_ksRound hph).trans hstep), ?_, ?_, ?_, ?_, ?_, ?_, ?_,
    ?_⟩
  · rw [hc]; exact toBits_rol s.c k hk28
  · rw [hd]; exact toBits_rol s.d k hk28
  · intro m hm hne
    simp only [hks]
    exact rotateAndStore_ks_getElem_ne hm h1 hne
  · intro m hm heq j hj
    simp only [hks, hc, hd, rotateAndStore_ks_getElem hm heq]
    exact map_getMsbD_perm tablePC2 _ rfl hj
  · intro hlt
    rw [afterKsRound_lt (s := rotateAndStore k s) hlt]
    rfl
  · intro h16 hop
    rw [afterKsRound_derive (s := rotateAndStore k s) (by exact h16.not_lt) ((op_eq_deriveKeys_iff _).2 hop)]
    rfl
  · intro h16 hop hn
    rw [afterKsRound_none (s := rotateAndStore k s) (by exact h16.not_lt) (mt (op_eq_deriveKeys_iff _).1 hop) hn]
    rfl
  · intro h16 hop hn
    rw [afterKsRound_more (s := rotateAndStore k s) (by exact h16.not_lt) (mt (op_eq_deriveKeys_iff _).1 hop) hn]
    rfl

/-! ### The halves after sixteen rounds -/

/-- A rotation by nothing. -/
theorem rol_zero {n : Nat} (v : BitVec n) : rol 0 v = v := by
  apply BitVec.eq_of_getMsbD_eq
  intro i hi
  simp [rol, BitVec.getMsbD_rotateLeft, hi, Nat.mod_eq_of_lt hi]

/-- A rotation by the whole width gives the value back. -/
theorem rol_width {n : Nat} (v : BitVec n) : rol n v = v := by
  apply BitVec.eq_of_getMsbD_eq
  intro i hi
  simp [rol, BitVec.getMsbD_rotateLeft, hi, Nat.mod_eq_of_lt hi]

/-- Rotations in turn are one rotation by their sum. -/
theorem foldl_rol {n : Nat} (ks : List Nat) (v : BitVec n) : ks.foldl (fun v k => rol k v) v = rol ks.sum v := by
  induction ks generalizing v with
  | nil => exact (rol_zero v).symm
  | cons k ks ih => rw [List.foldl_cons, ih, rol_rol, List.sum_cons]

/-- The rotations of the schedule total the width of a half (40_key_schedule.md R111, R118). -/
theorem foldl_rol_tableShifts (c : HalfKey) : tableShifts.foldl (fun c k => rol k c) c = c :=
  (foldl_rol tableShifts c).trans (rol_width c)

/-- After round 16 the halves are `C0` and `D0` (R118). -/
theorem halvesAfter_sixteen (k : Block) : halvesAfter k 16 = (keyC0 k, keyD0 k) :=
  Prod.ext (foldl_rol_tableShifts (keyC0 k)) (foldl_rol_tableShifts (keyD0 k))

/-- Settles O30: the sixteen rotations are one by 28, the width of a half. -/
theorem rotationsReturnHalves : Obligations.RotationsReturnHalves := fun k =>
  ⟨(halvesAfter_sixteen k).trans (halvesAfter_zero k).symm, foldl_rol_tableShifts⟩

/-! ### The parity bits -/

/-- PC1 names positions of the key, and none of them is a parity position (R117). -/
theorem tablePC1_not_parity : ∀ e ∈ tablePC1, e - 1 < 64 ∧ (e - 1 + 1) % 8 ≠ 0 := by decide

/-- Keys that agree off the parity positions have the same permuted key (R117). -/
theorem permutedKey_of_sameButParity {k k' : Block} (h : SameButParity k k') : permutedKey k = permutedKey k' := by
  have hbits : tablePC1.map (fun e => k.getMsbD (e - 1)) = tablePC1.map fun e => k'.getMsbD (e - 1) := by
    apply List.map_congr_left
    intro e he
    obtain ⟨hlt, hparity⟩ := tablePC1_not_parity e he
    exact h _ hlt hparity
  rw [permutedKey, perm, hbits]
  rfl

/-- Keys that agree off the parity positions have the same schedule (R117). -/
theorem keySchedule_of_sameButParity {k k' : Block} (h : SameButParity k k') : keySchedule k = keySchedule k' := by
  rw [keySchedule, keyC0, keyD0, permutedKey_of_sameButParity h]
  rfl

/-- The checks of a command read only the length of the key (60_exceptions.md R233: no parity is checked). -/
theorem firstError_key_congr {p : Params} {c : Byte} {k k' v d : Bits} (h : k.length = k'.length) :
    firstError p c k v d = firstError p c k' v d := by
  have hkey : ∀ op, checkKey op k = checkKey op k' := fun op => by cases op <;> simp only [checkKey, h]
  simp only [firstError, hkey]

/-- The result of a command reads the key only through the schedule of its first 64 bits. -/
theorem resultBits_key_congr (p : Params) (op : Opcode) {k k' v d : Bits}
    (h : keySchedule (first64 k) = keySchedule (first64 k')) : resultBits p op k v d = resultBits p op k' v d := by
  cases op with
  | deriveKeys => simp only [resultBits, h]
  | encryptBlock => simp only [resultBits, h]
  | encryptEcb => simp only [resultBits, ecb, h]
  | encryptCbc => simp only [resultBits, cbc, h]

/-- `Exec` reads the key only through its length and the schedule of its first 64 bits. -/
theorem execRef_key_congr {p : Params} {c : Byte} {k k' v d : Bits} (hlen : k.length = k'.length)
    (hks : keySchedule (first64 k) = keySchedule (first64 k')) : execRef p c k v d = execRef p c k' v d := by
  simp only [execRef, firstError_key_congr hlen, resultBits_key_congr p _ hks]

/-- The four assigned commands are those of their command bytes (30_encoding.md R82). -/
theorem exists_commandOf_of_assigned {mk : Bits → Bits → Bits → Instr}
    (h : mk = .deriveKeys ∨ mk = .encryptBlock ∨ mk = .encryptEcb ∨ mk = .encryptCbc) : ∃ c, mk = commandOf c := by
  rcases h with rfl | rfl | rfl | rfl
  · exact ⟨0x01#8, rfl⟩
  · exact ⟨0x02#8, rfl⟩
  · exact ⟨0x03#8, rfl⟩
  · exact ⟨0x04#8, rfl⟩

/-- Settles O31: PC1 names no parity position, and each command's response is `Exec` of it, which reads the key only
through its length and its schedule. -/
theorem parityBitsDoNotMatter : Obligations.ParityBitsDoNotMatter := by
  intro k k' hsame
  have hks := keySchedule_of_sameButParity hsame
  refine ⟨hks, fun s x iv data mk hmk hidle => ?_⟩
  obtain ⟨c, rfl⟩ := exists_commandOf_of_assigned hmk
  obtain ⟨t, hx, hph, hr⟩ := exec_commandOf_response c (toBits k ++ x) iv data hidle
  obtain ⟨t', hx', hph', hr'⟩ := exec_commandOf_response c (toBits k' ++ x) iv data hidle
  refine ⟨t, t', hx, hx', hph, hph', ?_⟩
  rw [hr, hr']
  exact execRef_key_congr (by simp) (by rw [first64_append, first64_append, hks])

/-! ### DERIVE_KEYS -/

/-- The state in KS_PC1 after DECODE of DERIVE_KEYS with the key `k` (R115). -/
def deriveDecoded (k : Block) (iv data : Bits) (s : State) : State :=
  { accept 0x01#8 (toBits k) iv data s with outbuf := [], keyreg := k, nblk := 0, phase := .ksPc1 }

/-- DECODE of DERIVE_KEYS with a 64-bit key. -/
theorem decodeDeriveKeys_accept (k : Block) (iv data : Bits) (s : State) :
    decodeDeriveKeys (accept 0x01#8 (toBits k) iv data s) = deriveDecoded k iv data s := by
  simp [decodeDeriveKeys, deriveDecoded, first64_toBits]

/-- DERIVE_KEYS with a 64-bit key runs the whole key schedule and returns the sixteen subkeys (R114, R115). -/
theorem exec_deriveKeys (k : Block) (iv data : Bits) {s : State} (h : s.phase = .idle) :
    exec (.deriveKeys (toBits k) iv data) s =
      .next (complete { keysDone (deriveDecoded k iv data s) with outbuf := subkeyBits (keySchedule k) }) := by
  have hlast : afterKsRound (keysDone (deriveDecoded k iv data s)) = _ :=
    afterKsRound_derive (by simp [keysDone]) rfl
  calc exec (.deriveKeys (toBits k) iv data) s
      = finishCommand (decodeDeriveKeys (accept 0x01#8 (toBits k) iv data s)) := if_pos h
    _ = finishCommand (deriveDecoded k iv data s) := by rw [decodeDeriveKeys_accept]
    _ = .next (afterKsRound (keysDone (deriveDecoded k iv data s))) := finishCommand_path (path_keySchedule rfl)
    _ = _ := by rw [hlast]; rfl

/-- Settles O37: the registers are those after the key schedule (`exec_deriveKeys`), whose halves are back at `C0` and
`D0`. -/
theorem deriveKeysReturnsSchedule : Obligations.DeriveKeysReturnsSchedule := fun k iv data s hidle =>
  ⟨_, exec_deriveKeys k iv data hidle, ⟨rfl, rfl, rfl, rfl⟩, by simp [subkeyBits_length], ⟨rfl, rfl, rfl, rfl⟩, rfl,
    congrArg Prod.fst (halvesAfter_sixteen k), congrArg Prod.snd (halvesAfter_sixteen k), rfl, rfl, rfl, rfl, rfl, rfl,
    rfl, rfl, rfl, rfl, rfl, rfl, rfl, rfl, rfl, rfl⟩

/-! ### Keys with zero halves -/

/-- Zero halves stay zero and have zero subkeys (R119). -/
theorem scheduleFrom_zero (ks : List Nat) : scheduleFrom ks 0#28 0#28 = List.replicate ks.length 0#48 := by
  have hrol : ∀ k, rol k 0#28 = 0#28 := fun k => by
    apply BitVec.eq_of_getMsbD_eq
    simp [rol, BitVec.getMsbD_rotateLeft]
  have hsub : compress 0#28 0#28 = 0#48 := by decide
  induction ks with
  | nil => rfl
  | cons k ks ih => rw [scheduleFrom, hrol, hsub, ih, List.length_cons, List.replicate_succ]

/-- A key with zero halves has sixteen zero subkeys (R119). -/
theorem keySchedule_of_zero_halves {k : Block} (hc : keyC0 k = 0#28) (hd : keyD0 k = 0#28) :
    keySchedule k = List.replicate 16 0#48 := by
  rw [keySchedule, hc, hd, scheduleFrom_zero]
  rfl

/-- The bits of zero. -/
theorem toBits_zero (n : Nat) : toBits 0#n = List.replicate n false :=
  List.eq_replicate_iff.2 ⟨toBits_length _, by simp [toBits, BitVec.getMsbD]⟩

/-- Settles O32: DERIVE_KEYS completes with the schedule, here sixteen zero subkeys. -/
theorem zeroHalvesGiveEqualSubkeys : Obligations.ZeroHalvesGiveEqualSubkeys := by
  intro k iv data s hc hd hidle
  refine ⟨_, exec_deriveKeys k iv data hidle, rfl, rfl, rfl, ?_⟩
  show subkeyBits (keySchedule k) = _
  rw [keySchedule_of_zero_halves hc hd, subkeyBits, List.flatMap_replicate, toBits_zero,
    List.flatten_replicate_replicate]

end Sys2Proof.Machine
end

section
/-! PROOFS. The round function family of statements (41_round_function.md): the rows of the expansion, the groups of the
substitution, and the round function on complemented operands. -/

namespace Sys2Proof.Machine

/-! ### The expansion -/

/-- Place j of row g of E names bit `R{4g+j}`, cyclically (41_round_function.md R140, R141). -/
theorem tableE_getElem? : ∀ g < 8, ∀ j < 6, tableE[6 * g + j]? = some ((4 * g + 31 + j) % 32 + 1) := by decide

/-- Settles O33: `E(R)` takes the bits that the table names, which each row of six counts on cyclically. -/
theorem expansionRowsOverlap : Obligations.ExpansionRowsOverlap := by
  intro r g j hg hj
  have hbit := map_getMsbD_perm (n := 48) tableE r rfl (j := 6 * g + j) (by omega)
  rw [tableE_getElem? g hg j hj, Option.map_some, Nat.add_sub_cancel] at hbit
  exact (Option.some.inj hbit).symm

/-! ### The substitution -/

/-- Places in a concatenation of parts of one length: place `w * i + j` is place `j` of part `i`. -/
theorem getElem?_flatMap_of_length {α β : Type} {f : α → List β} {w j : Nat} (hf : ∀ a, (f a).length = w) (hj : j < w)
    (l : List α) (i : Nat) : (l.flatMap f)[w * i + j]? = l[i]?.bind fun a => (f a)[j]? := by
  induction l generalizing i with
  | nil => simp
  | cons a l ih =>
    rw [List.flatMap_cons]
    cases i with
    | zero => rw [Nat.mul_zero, Nat.zero_add, List.getElem?_append_left ((hf a).symm ▸ hj)]; rfl
    | succ i =>
      have hplace : w * (i + 1) + j = (f a).length + (w * i + j) := by rw [hf, Nat.mul_succ]; omega
      rw [hplace, List.getElem?_append_right (Nat.le_add_right _ _), Nat.add_sub_cancel_left, ih]
      rfl

/-- The bits of `bitsN(x)`, most significant first (00_scope.md R10). -/
theorem bitsN_getElem? {n j : Nat} (x : Nat) (h : j < n) : (bitsN n x)[j]? = some (x.testBit (n - 1 - j)) := by
  have hlt : n - 1 - j < n := by omega
  have hbit : (BitVec.ofNat n x).getMsbD j = x.testBit (n - 1 - j) := by
    simp only [BitVec.getMsbD, BitVec.getLsbD_ofNat, h, hlt, decide_true, Bool.true_and]
  rw [bitsN, toBits, List.getElem?_map, List.getElem?_range h, Option.map_some, hbit]

/-- Bit j of `B_i` is bit `6i + j` of X, both from 0 (41_round_function.md R143). -/
theorem getMsbD_group (x : BitVec 48) {i j : Nat} (hi : i < 8) (hj : j < 6) :
    (group x i).getMsbD j = x.getMsbD (6 * i + j) := by
  rw [group, getMsbD_seg _ _ _ _ (by omega) hj, Nat.add_sub_cancel]

/-- Output group i of `S(X)` is the S-box entry of input group i, most significant bit first (R145). -/
theorem getMsbD_substitute (x : BitVec 48) {i j : Nat} (hi : i < 8) (hj : j < 4) :
    (substitute x).getMsbD (4 * i + j) = (sboxOut i (group x i)).testBit (3 - j) := by
  have hlen : ∀ i, (bitsN 4 (sboxOut i (group x i))).length = 4 := fun _ => toBits_length _
  rw [substitute, getMsbD_ofBits _ (by simp [hlen]), getElem?_flatMap_of_length hlen hj, List.getElem?_range hi,
    Option.bind_some, bitsN_getElem? _ hj, Option.getD_some]

/-- Settles O34: the row and the column of `B_i` are those of the bits `6i` to `6i + 5` of X. -/
theorem substitutionLooksUpGroups : Obligations.SubstitutionLooksUpGroups := by
  intro x i j hi hj
  have hgroup : ∀ m < 6, (group x i).getMsbD m = x.getMsbD (6 * i + m) := fun _ hm => getMsbD_group x hi hm
  rw [getMsbD_substitute x hi hj, sboxOut, sboxRow, sboxCol, hgroup 0 (by decide), hgroup 1 (by decide),
    hgroup 2 (by decide), hgroup 3 (by decide), hgroup 4 (by decide), hgroup 5 (by decide), Nat.add_zero]

/-! ### The round function -/

/-- The expansion commutes with complement, as a permutation does (41_round_function.md R140). -/
theorem expand_not (r : HalfBlock) : expand (~~~r) = ~~~(expand r) := perm_not tableE rfl (by decide) r

/-- Complementing both operands of f leaves its value: the S-boxes see `E(R) XOR K`, where the complements cancel
(R142). -/
theorem roundF_not (r : HalfBlock) (k : Subkey) : roundF (~~~r) (~~~k) = roundF r k := by
  have hcancel : ∀ a b : BitVec 48, ~~~a ^^^ ~~~b = a ^^^ b := fun a b => by
    rw [← BitVec.not_xor_left, ← BitVec.not_xor_right, BitVec.not_not]
  rw [roundF, roundF, expand_not, hcancel]

/-- Settles O35: `f(R, K)` is a permutation of the substitution, and `roundF_not`. -/
theorem roundFunctionComplement : Obligations.RoundFunctionComplement := fun r k =>
  ⟨fun _ hj => map_getMsbD_perm (n := 32) tableP (substitute (expand r ^^^ k)) rfl hj, roundF_not r k⟩

end Sys2Proof.Machine
end

section
/-! PROOFS. The block transform family of statements (42_block_transform.md): the two permutations, the complementation
property, the transitions of the sequencer, and a command from accept to RESPOND. -/

namespace Sys2Proof.Machine

open Sys2Proof.Config Sys2Proof.Claims

/-! ### The initial and the final permutation -/

/-- Where the entries of two tables name each other's places, permuting by one undoes permuting by the other. -/
theorem perm_perm_of_inverse {n : Nat} {T U : List Nat} (hT : T.length = n) (hU : U.length = n)
    (h : ∀ j < n, (U[j]?).bind (fun e => T[e - 1]?) = some (j + 1)) (x : BitVec n) : perm n U (perm n T x) = x := by
  apply BitVec.eq_of_getMsbD_eq
  intro j hj
  obtain ⟨e, hUj, hTe⟩ := Option.bind_eq_some_iff.1 (h j hj)
  obtain ⟨hlt, -⟩ := List.getElem?_eq_some_iff.1 hTe
  have houter := map_getMsbD_perm U (perm n T x) hU hj
  have hinner := map_getMsbD_perm T x hT (hT ▸ hlt)
  rw [hUj, Option.map_some, Option.some.injEq] at houter
  rw [hTe, Option.map_some, Option.some.injEq, Nat.add_sub_cancel] at hinner
  rw [← houter, ← hinner]

/-- Settles O36: entry j of either table names the place of j in the other. -/
theorem finalPermutationInvertsInitial : Obligations.FinalPermutationInvertsInitial := fun x =>
  ⟨perm_perm_of_inverse (T := tableIP) (U := tableFP) rfl rfl (by decide) x,
    perm_perm_of_inverse (T := tableFP) (U := tableIP) rfl rfl (by decide) x⟩

/-! ### The complementation property -/

/-- The permuted key commutes with complement. -/
theorem permutedKey_not (k : Block) : permutedKey (~~~k) = ~~~permutedKey k := perm_not tablePC1 rfl (by decide) k

theorem keyC0_not (k : Block) : keyC0 (~~~k) = ~~~keyC0 k := by
  rw [keyC0, permutedKey_not, seg_not _ _ _ (by decide), keyC0]

theorem keyD0_not (k : Block) : keyD0 (~~~k) = ~~~keyD0 k := by
  rw [keyD0, permutedKey_not, seg_not _ _ _ (by decide), keyD0]

/-- Complemented halves have the complemented subkey. -/
theorem compress_not (c d : HalfKey) : compress (~~~c) (~~~d) = ~~~compress c d := by
  rw [compress, ← BitVec.not_append, perm_not (n := 48) tablePC2 rfl (by decide), compress]

theorem scheduleFrom_not (ks : List Nat) (c d : HalfKey) :
    scheduleFrom ks (~~~c) (~~~d) = (scheduleFrom ks c d).map (~~~·) := by
  induction ks generalizing c d with
  | nil => rfl
  | cons k ks ih => rw [scheduleFrom, rol_not, rol_not, compress_not, ih, scheduleFrom, List.map_cons]

/-- The schedule of a complemented key is complemented subkey by subkey. -/
theorem keySchedule_not (k : Block) : keySchedule (~~~k) = (keySchedule k).map (~~~·) := by
  rw [keySchedule, keyC0_not, keyD0_not, scheduleFrom_not, keySchedule]

/-- Rounds with complemented subkeys on complemented halves: f sees no complement (`roundF_not`), so both halves stay
complemented. -/
theorem rounds_not (K : List Subkey) (l r : HalfBlock) :
    rounds (K.map (~~~·)) (~~~l, ~~~r) = (~~~(rounds K (l, r)).1, ~~~(rounds K (l, r)).2) := by
  induction K generalizing l r with
  | nil => rfl
  | cons k K ih => rw [List.map_cons, rounds, roundF_not, ← BitVec.not_xor_left, ih, rounds]

theorem initialHalves_not (p : Block) : initialHalves (~~~p) = (~~~(initialHalves p).1, ~~~(initialHalves p).2) := by
  rw [initialHalves, perm_not (n := 64) tableIP rfl (by decide), seg_not _ _ _ (by decide), seg_not _ _ _ (by decide),
    initialHalves]

theorem finalBlock_not (l r : HalfBlock) : finalBlock (~~~l, ~~~r) = ~~~finalBlock (l, r) := by
  rw [finalBlock, ← BitVec.not_append, perm_not (n := 64) tableFP rfl (by decide), finalBlock]

/-- Complementing the block and every subkey complements the ciphertext block (42_block_transform.md R184). -/
theorem desEnc_not (p : Block) (K : List Subkey) : desEnc (~~~p) (K.map (~~~·)) = ~~~desEnc p K := by
  rw [desEnc, initialHalves_not, rounds_not, finalBlock_not, desEnc]

/-! ### One transition -/

/-- Settles O15: every meaning asks for IDLE first. -/
theorem busyCoreAcceptsNothing : Obligations.BusyCoreAcceptsNothing := by
  intro i s h
  cases i with
  | deriveKeys => exact if_neg h
  | encryptBlock => exact if_neg h
  | encryptEcb => exact if_neg h
  | encryptCbc => exact if_neg h
  | illegal => exact if_neg h

/-- A core in RESPOND that the host leaves the turn stays as it is. -/
theorem step_of_turn_core_respond {s t : State} (ht : turn s = .core t) (h : t.phase = .respond) :
    step s = .next t := by
  simp only [step, ht, fetch_none_of_phase (s := t) (by simp [h]), seqStep_respond h]

/-- Settles O14, by the host's move: each of the three leaves the turn to the core. -/
theorem responseHeldUntilTaken : Obligations.ResponseHeldUntilTaken := by
  intro s bs h hresp
  refine ⟨fun hh => ?_, fun hh => ?_, fun hh => ?_⟩
  · exact step_of_turn_core_respond (turn_nil hh) hresp
  · exact step_of_turn_core_respond (by simp [turn, hh]) hresp
  · exact step_of_turn_core_respond (by simp [turn, hh, hresp]) hresp

/-- Settles O20: the step is the accept transition (`step_accept`). -/
theorem acceptLatchesCommand : Obligations.AcceptLatchesCommand := fun _ _ _ hidle hg hh hdec =>
  step_accept hidle hg hh hdec

/-- A check before others raises nothing exactly where it passes and the others raise nothing. -/
theorem ite_some_eq_none_iff {c : Prop} [Decidable c] {e : CmdError} {x : Option CmdError} :
    (if c then some e else x) = none ↔ ¬ c ∧ x = none := by
  by_cases h : c <;> simp [h]

/-- DECODE of DERIVE_KEYS when its check passes (40_key_schedule.md R115). -/
theorem stepDecode_deriveKeys {s : State} (ho : opcodeOf s.cmdreg = some .deriveKeys)
    (he : firstError s.params s.cmdreg s.keyop s.ivop s.dataop = none) :
    stepDecode s = { s with outbuf := [], keyreg := first64 s.keyop, nblk := 0, phase := .ksPc1 } := by
  rw [firstError_deriveKeys ho, ite_some_eq_none_iff] at he
  obtain ⟨hk, -⟩ := he
  simp only [stepDecode, ho, decodeDeriveKeys, if_neg hk]

/-- DECODE of ENCRYPT_BLOCK when its checks pass (42_block_transform.md R177). -/
theorem stepDecode_encryptBlock {s : State} (ho : opcodeOf s.cmdreg = some .encryptBlock)
    (he : firstError s.params s.cmdreg s.keyop s.ivop s.dataop = none) :
    stepDecode s = { s with outbuf := [], keyreg := first64 s.keyop, nblk := 1, blk := 0, phase := .ksPc1 } := by
  rw [firstError_encryptBlock ho, ite_some_eq_none_iff, ite_some_eq_none_iff] at he
  obtain ⟨hk, hd, -⟩ := he
  simp only [stepDecode, ho, decodeEncryptBlock, if_neg hk, if_neg hd]

/-- DECODE of ENCRYPT_ECB when its checks pass (43_mode_controller.md R209). -/
theorem stepDecode_encryptEcb {s : State} (ho : opcodeOf s.cmdreg = some .encryptEcb)
    (he : firstError s.params s.cmdreg s.keyop s.ivop s.dataop = none) :
    stepDecode s = { s with
      outbuf := [], keyreg := first64 s.keyop, nblk := blockCount s.params s.dataop, blk := 0, phase := .ksPc1 } := by
  rw [firstError_encryptEcb ho, ite_some_eq_none_iff, ite_some_eq_none_iff] at he
  obtain ⟨hk, hd, -⟩ := he
  simp only [stepDecode, ho, decodeEncryptEcb, if_neg hk, if_neg hd]

/-- DECODE of ENCRYPT_CBC when its checks pass (R210). -/
theorem stepDecode_encryptCbc {s : State} (ho : opcodeOf s.cmdreg = some .encryptCbc)
    (he : firstError s.params s.cmdreg s.keyop s.ivop s.dataop = none) :
    stepDecode s = { s with
      outbuf := [], keyreg := first64 s.keyop, ivreg := first64 s.ivop, chain := first64 s.ivop
      nblk := blockCount s.params s.dataop, blk := 0, phase := .ksPc1 } := by
  rw [firstError_encryptCbc ho, ite_some_eq_none_iff, ite_some_eq_none_iff, ite_some_eq_none_iff] at he
  obtain ⟨hk, hv, hd, -⟩ := he
  simp only [stepDecode, ho, decodeEncryptCbc, if_neg hk, if_neg hv, if_neg hd]

/-- A command that passes its checks has at least the 64 bits of a key (60_exceptions.md R233). -/
theorem keyop_length_of_firstError_none {p : Params} {c : Byte} {k v d : Bits} (h : firstError p c k v d = none) :
    64 ≤ k.length := by
  rcases firstError_none h with ⟨-, hk⟩ | ⟨-, hk, -⟩ | ⟨-, hk, -⟩ | ⟨-, hk, -⟩
  · exact hk.ge
  · exact hk.ge
  · exact hk
  · exact hk

/-- An ENCRYPT_CBC that passes its checks has at least the 64 bits of an IV (R233). -/
theorem ivop_length_of_firstError_none {p : Params} {c : Byte} {k v d : Bits} (ho : opcodeOf c = some .encryptCbc)
    (h : firstError p c k v d = none) : 64 ≤ v.length := by
  rw [firstError_encryptCbc ho, ite_some_eq_none_iff, ite_some_eq_none_iff] at h
  obtain ⟨-, hv, -⟩ := h
  exact Nat.le_of_not_lt hv

/-- Settles O21: what holds of the four commands alike is what KS_PC1 may rely on (`KeyStage`); the rest is DECODE of
each. -/
theorem decodeWritesWorkingRegisters : Obligations.DecodeWritesWorkingRegisters := by
  intro s hph hh he
  have hpc1 : (stepDecode s).phase = .ksPc1 := by rw [stepDecode_phase, he]; rfl
  obtain ⟨-, ⟨-, hkeyop, -⟩, -⟩ := stepDecode_keeps s
  obtain ⟨⟨-, hkey, -, -⟩, hout, -, -⟩ := (phaseInv_stepDecode s).1 hpc1
  refine ⟨stepDecode s, (step_busy hh (by simp [hph])).trans (seqStep_decode hph), hpc1, hout, ?_, ?_, ?_, ?_, ?_⟩
  · rw [hkey, hkeyop, toBits_first64 _ (keyop_length_of_firstError_none he)]
  · intro hc
    rw [stepDecode_deriveKeys (by rw [hc]; rfl) he]
  · intro hc
    rw [stepDecode_encryptBlock (by rw [hc]; rfl) he]
  · intro hc
    rw [stepDecode_encryptEcb (by rw [hc]; rfl) he]
  · intro hc
    have ho : opcodeOf s.cmdreg = some .encryptCbc := by rw [hc]; rfl
    rw [stepDecode_encryptCbc ho he]
    exact ⟨toBits_first64 _ (ivop_length_of_firstError_none ho he), rfl⟩

/-- Settles O26: IP and FP are permutations of a block, which IP splits in its two halves. -/
theorem blockPermutationSteps : Obligations.BlockPermutationSteps := by
  intro s hh
  refine ⟨fun hph => ⟨stepIp s, (step_busy hh (by simp [hph])).trans (seqStep_ip hph), rfl, fun j hj => ?_⟩,
    fun hph => (step_busy hh (by simp [hph])).trans (seqStep_swap hph),
    fun hph => ⟨stepFp s, (step_busy hh (by simp [hph])).trans (seqStep_fp hph), rfl, fun j hj => ?_⟩⟩
  · have hhalves : (stepIp s).l ++ (stepIp s).r = perm 64 tableIP s.blkin := seg_append_32 _
    rw [hhalves]
    exact map_getMsbD_perm tableIP s.blkin rfl hj
  · exact map_getMsbD_perm tableFP s.preout rfl hj

/-- Settles O27: the step is `feistel` with the subkey that RND names. -/
theorem feistelRoundUsesOldHalves : Obligations.FeistelRoundUsesOldHalves := by
  intro s n hn hph hh hrnd
  have hstep : step s = .next (feistel s.ks[n] s) := by
    rw [step_busy hh (by simp [hph]), seqStep_round hph, stepRound_eq (by omega) (by omega)]
    simp only [hrnd, Nat.add_sub_cancel]
  rw [hstep]
  refine ⟨fun hlt => ?_, fun h16 => ?_⟩
  · rw [feistel, if_pos (hrnd ▸ hlt), if_pos (hrnd ▸ hlt)]
  · rw [feistel, if_neg (by omega), if_neg (by omega)]

/-! ### The transition table -/

/-- The phases that can follow KS_ROUND, chosen in the order of R116. -/
theorem afterKsRound_phase (s : State) : (afterKsRound s).phase =
    if s.rnd.toNat < 16 then .ksRound
    else if s.op = some .deriveKeys then .respond
    else if s.nblk = 0 then .respond
    else .blkLoad := by
  unfold afterKsRound
  simp only [apply_ite State.phase, complete_phase]

/-- The phases that can follow BLK_STORE (43_mode_controller.md R206). -/
theorem stepBlkStore_phase (s : State) :
    (stepBlkStore s).phase = if s.blk + 1 < s.nblk then .blkLoad else .respond := by
  unfold stepBlkStore
  simp only [apply_ite State.phase, complete_phase]

/-- The accept transition is taken where a complete packet is received (42_block_transform.md R180). -/
theorem stepIdle_phase {s : State} (h : s.phase = .idle) :
    (stepIdle s).phase = if (decode s.rx).toOption.isSome then .decode else .idle := by
  unfold stepIdle
  cases decode s.rx with
  | ok => rfl
  | error => exact h

/-- A transition that does not fault goes to the phase of the table of R181. -/
theorem seqStep_phase {s t : State} (h : seqStep s = .next t) : t.phase = nextPhase s := by
  cases hs : s.phase with
  | idle =>
    cases (seqStep_idle hs).symm.trans h
    simp only [nextPhase, hs, stepIdle_phase hs]
  | decode =>
    cases (seqStep_decode hs).symm.trans h
    simp only [nextPhase, hs, stepDecode_phase]
  | ksPc1 =>
    cases (seqStep_ksPc1 hs).symm.trans h
    simp only [nextPhase, hs, stepKsPc1]
  | ksRound =>
    obtain ⟨k, -, rfl⟩ := stepKsRound_next ((seqStep_ksRound hs).symm.trans h)
    simp only [nextPhase, hs, afterKsRound_phase]
    rfl
  | blkLoad =>
    obtain ⟨-, rfl⟩ := stepBlkLoad_next ((seqStep_blkLoad hs).symm.trans h)
    simp only [nextPhase, hs]
  | ip =>
    cases (seqStep_ip hs).symm.trans h
    simp only [nextPhase, hs, stepIp]
  | round =>
    obtain ⟨k, rfl⟩ := stepRound_next ((seqStep_round hs).symm.trans h)
    simp only [nextPhase, hs, feistel]
  | swap =>
    cases (seqStep_swap hs).symm.trans h
    simp only [nextPhase, hs, stepSwap]
  | fp =>
    cases (seqStep_fp hs).symm.trans h
    simp only [nextPhase, hs, stepFp]
  | blkStore =>
    cases (seqStep_blkStore hs).symm.trans h
    simp only [nextPhase, hs, stepBlkStore_phase]
  | respond =>
    cases (seqStep_respond hs).symm.trans h
    simp only [nextPhase, hs]

/-- Settles O19: the invariant rules the faults out, and `seqStep_phase`. -/
theorem transitionTable : Obligations.TransitionTable := by
  rintro s ⟨-, -, hinv⟩ hh hg
  obtain ⟨t, ht, -⟩ := phaseInv_seqStep hinv
  exact ⟨t, (step_phase hh hg).trans ht, seqStep_phase ht⟩

/-! ### A command from accept to RESPOND -/

/-- The meaning of a command that its own byte and operands decode to: accept, DECODE and the datapath. -/
theorem exec_eq_finishCommand {i : Instr} (hi : commandOf i.cmdByte i.key i.iv i.data = i) {s : State}
    (h : s.phase = .idle) : exec i s = finishCommand (stepDecode (accept i.cmdByte i.key i.iv i.data s)) := by
  rw [← exec_commandOf _ _ _ _ h, hi]

/-- A decoded command is the one its own byte and operands decode to. -/
theorem commandOf_self_of_decode {bs rest : List Byte} {i : Instr} (h : decode bs = .ok (i, rest)) :
    commandOf i.cmdByte i.key i.iv i.data = i := by
  obtain ⟨c, k, v, d, rfl⟩ := decode_wf_commandOf h
  obtain ⟨hc, hk, hv, hd⟩ := commandOf_fields c k v d
  rw [hc, hk, hv, hd]

/-- Settles O44: accept latches the command, and `command_path` keeps the latches and offers `Exec`. -/
theorem everyCommandOffersExec : Obligations.EveryCommandOffersExec := by
  intro i s hwf hidle
  obtain ⟨-, t, -, -, hph, hresp, ⟨hparams, hgrain, hhost, htaken⟩, ⟨hcmd, hkey, hiv, hdata, hrx⟩, hfin⟩ :=
    command_path (accept i.cmdByte i.key i.iv i.data s)
  exact ⟨t, (exec_eq_finishCommand (commandOf_self i hwf) hidle).trans hfin, hph, hresp, ⟨hcmd, hkey, hiv, hdata⟩,
    hparams, hgrain, hrx, hhost, htaken⟩

/-- Settles O46: the machine's run is the accept transition, DECODE and the path of the datapath, which ends where
`finishCommand` does. -/
theorem sequencerRefinesCommand : Obligations.SequencerRefinesCommand := by
  intro s i rest hidle hg hh hdec
  obtain ⟨n, t, hn, hpath, -, -, -, -, hfin⟩ :=
    command_path (accept i.cmdByte i.key i.iv i.data { s with rx := rest })
  have hcount : stepCount s.params i.cmdByte i.key i.iv i.data - 1 = n + 1 + 1 := by
    simp only [accept_params, accept_cmdreg, accept_keyop, accept_ivop, accept_dataop] at hn
    omega
  have hpath' := hpath.cons (by simp) (by simp) (seqStep_decode rfl)
  rw [exec_eq_finishCommand (s := { s with rx := rest }) (commandOf_self_of_decode hdec) hidle, hfin, hcount,
    run_succ _ (step_accept hidle hg hh hdec)]
  exact hpath'.runs hg hh 0

/-! ### ENCRYPT_BLOCK -/

/-- The state in KS_PC1 after DECODE of ENCRYPT_BLOCK with the key `k` and the block `p` (R177). -/
def blockDecoded (k p : Block) (iv : Bits) (s : State) : State :=
  { accept 0x02#8 (toBits k) iv (toBits p) s with outbuf := [], keyreg := k, nblk := 1, blk := 0, phase := .ksPc1 }

/-- DECODE of ENCRYPT_BLOCK with a key and data of 64 bits. -/
theorem decodeEncryptBlock_accept (k p : Block) (iv : Bits) (s : State) :
    decodeEncryptBlock (accept 0x02#8 (toBits k) iv (toBits p) s) = blockDecoded k p iv s := by
  simp [decodeEncryptBlock, blockDecoded, first64_toBits]

/-- The state in BLK_LOAD of ENCRYPT_BLOCK, after the key schedule (R116). -/
def blockKeyed (k p : Block) (iv : Bits) (s : State) : State :=
  { keysDone (blockDecoded k p iv s) with phase := .blkLoad }

/-- The state that ENCRYPT_BLOCK ends in (R176, R177). -/
def blockEncrypted (k p : Block) (iv : Bits) (s : State) : State :=
  complete { blockDone p (blockKeyed k p iv s) with outbuf := toBits (desEnc p (keySchedule k)) }

/-- ENCRYPT_BLOCK reads the block from DATA as it is. -/
theorem blockInput_blockKeyed (k p : Block) (iv : Bits) (s : State) : blockInput (blockKeyed k p iv s) = p :=
  (blockAt_zero_eq_first64 (toBits p) (toBits_length p)).trans (first64_toBits p)

/-- The datapath of ENCRYPT_BLOCK: the key schedule and one block. -/
theorem path_blockDecoded (k p : Block) (iv : Bits) (s : State) :
    Path 38 (blockDecoded k p iv s) (blockEncrypted k p iv s) := by
  have hkeys : Path 17 (blockDecoded k p iv s) (afterKsRound (keysDone (blockDecoded k p iv s))) :=
    path_keySchedule rfl
  have hload : afterKsRound (keysDone (blockDecoded k p iv s)) = blockKeyed k p iv s :=
    afterKsRound_more (by simp [keysDone]) nofun nofun
  have hblock : Path 21 (blockKeyed k p iv s) _ := path_block rfl Nat.zero_lt_one
  rw [blockInput_blockKeyed, blkStore_last p (s := blockKeyed k p iv s) (Nat.lt_irrefl 1)] at hblock
  exact (hload ▸ hkeys).trans hblock

/-- ENCRYPT_BLOCK with a key and data of 64 bits. -/
theorem exec_encryptBlock (k p : Block) (iv : Bits) {s : State} (h : s.phase = .idle) :
    exec (.encryptBlock (toBits k) iv (toBits p)) s = .next (blockEncrypted k p iv s) := by
  calc exec (.encryptBlock (toBits k) iv (toBits p)) s
      = finishCommand (decodeEncryptBlock (accept 0x02#8 (toBits k) iv (toBits p) s)) := if_pos h
    _ = finishCommand (blockDecoded k p iv s) := by rw [decodeEncryptBlock_accept]
    _ = .next (blockEncrypted k p iv s) := finishCommand_path (path_blockDecoded k p iv s)

/-- Settles O38: the registers are those after the key schedule and one block (`exec_encryptBlock`). -/
theorem encryptBlockReturnsCiphertext : Obligations.EncryptBlockReturnsCiphertext := fun k p iv _ hidle =>
  ⟨_, exec_encryptBlock k p iv hidle, ⟨rfl, rfl, rfl, rfl⟩, toBits_length _, ⟨rfl, rfl, rfl, rfl⟩, rfl,
    congrArg Prod.fst (halvesAfter_sixteen k), congrArg Prod.snd (halvesAfter_sixteen k), rfl, rfl, rfl, rfl, rfl, rfl,
    rfl, rfl, rfl, rfl, rfl, rfl, rfl, rfl, rfl⟩

/-- Settles O50: the schedule and the rounds commute with complement (`keySchedule_not`, `desEnc_not`), and
ENCRYPT_BLOCK returns `DES_ENC`. -/
theorem complementationProperty : Obligations.ComplementationProperty := by
  intro k p iv iv' s s' hs hs'
  have hcompl : desEnc (~~~p) (keySchedule (~~~k)) = ~~~desEnc p (keySchedule k) := by
    rw [keySchedule_not, desEnc_not]
  refine ⟨hcompl, _, _, exec_encryptBlock k p iv hs, exec_encryptBlock (~~~k) (~~~p) iv' hs', rfl, rfl, ?_⟩
  show toBits (desEnc (~~~p) (keySchedule (~~~k))) = (toBits (desEnc p (keySchedule k))).map not
  rw [hcompl, toBits_not]

end Sys2Proof.Machine
end

section
/-! PROOFS. The mode controller family of statements (43_mode_controller.md): the two block steps, the blocks of a data
operand, what ENCRYPT_ECB and ENCRYPT_CBC leave, and the properties of the two modes. -/

namespace Sys2Proof.Machine

open Sys2Proof.Config Sys2Proof.Claims

/-! ### The two block steps -/

/-- Bit `j` of what BLK_LOAD puts into BLKIN (43_mode_controller.md R202, R204). -/
theorem getMsbD_blockInput (s : State) {j : Nat} (hj : j < 64) : (blockInput s).getMsbD j =
    (((s.dataop[64 * s.blk + j]?).getD false) ^^ (decide (s.cmdreg = 0x04#8) && s.chain.getMsbD j)) := by
  unfold blockInput
  rw [chains_iff]
  by_cases hc : s.cmdreg = 0x04#8
  · simp [hc, getMsbD_blockAt _ _ _ hj]
  · simp [hc, getMsbD_blockAt _ _ _ hj]

/-- Settles O25: the step puts `blockInput` into BLKIN. -/
theorem blockLoadPadsAndChains : Obligations.BlockLoadPadsAndChains := by
  intro s hph hh hlt
  have hstep : step s = .next { s with blkin := blockInput s, phase := .ip } := by
    rw [step_busy hh (by simp [hph]), seqStep_blkLoad hph, stepBlkLoad, if_pos hlt, blockInput]
  exact ⟨_, hstep, rfl, fun _ hj => getMsbD_blockInput s hj⟩

/-- Settles O28: the step is `stepBlkStore`, which goes on or completes. -/
theorem blockStoreAppendsAndChains : Obligations.BlockStoreAppendsAndChains := by
  intro s hph hh
  have hstep : step s = .next (stepBlkStore s) := (step_busy hh (by simp [hph])).trans (seqStep_blkStore hph)
  simp only [hstep, stepBlkStore, chains_iff, decide_eq_true_eq]
  refine ⟨fun hlt => by rw [if_pos hlt], fun hle => ?_⟩
  rw [if_neg (Nat.not_lt.2 hle)]
  rfl

/-! ### The blocks of a data operand -/

/-- Empty data has EMPTY_DATA_BLOCKS blocks (R202). -/
theorem blockCount_nil (p : Params) : blockCount p [] = p.emptyDataBlocks.val := rfl

/-- Data that is not empty has a block for each 64 bits or part of them (R202). -/
theorem blockCount_of_ne_nil (p : Params) {d : Bits} (h : d ≠ []) : blockCount p d = (d.length + 63) / 64 :=
  if_neg (by simpa using h)

/-- A block of 64 bits is one block. -/
theorem blockCount_toBits (p : Params) (b : Block) : blockCount p (toBits b) = 1 := by simp [blockCount]

/-- Two blocks are equal where the data bits they cover are, zero past the end of either. -/
theorem blockAt_congr {d d' : Bits} {i i' : Nat}
    (h : ∀ j < 64, (d[64 * i + j]?).getD false = (d'[64 * i' + j]?).getD false) : blockAt d i = blockAt d' i' :=
  BitVec.eq_of_getMsbD_eq fun j hj => by rw [getMsbD_blockAt _ _ _ hj, getMsbD_blockAt _ _ _ hj, h j hj]

/-- The blocks of empty data are zero (R202). -/
theorem blockAt_nil (j : Nat) : blockAt [] j = 0#64 :=
  BitVec.eq_of_getMsbD_eq fun i hi => by simp [getMsbD_blockAt _ _ _ hi]

/-- The only block of 64 bits is that block. -/
theorem blockAt_toBits (b : Block) : blockAt (toBits b) 0 = b :=
  (blockAt_zero_eq_first64 _ (toBits_length b)).trans (first64_toBits b)

/-- Zero bits at the end of the data change no block (R207). -/
theorem blockAt_append_zeros (d : Bits) (n j : Nat) : blockAt (d ++ List.replicate n false) j = blockAt d j :=
  blockAt_congr fun i _ => by
    by_cases h : 64 * j + i < d.length
    · rw [List.getElem?_append_left h]
    · rw [List.getElem?_append_right (by omega), List.getElem?_eq_none (Nat.le_of_not_lt h), List.getElem?_replicate]
      split <;> rfl

/-- The blocks of whole blocks followed by more data are those of the one, then those of the other. -/
theorem dataBlocks_append (p : Params) {d d₂ : Bits} (hd : d ≠ []) (h64 : 64 ∣ d.length) (hd₂ : d₂ ≠ []) :
    dataBlocks p (d ++ d₂) = dataBlocks p d ++ dataBlocks p d₂ := by
  obtain ⟨m, hm⟩ := h64
  have hcount : blockCount p d = m := by rw [blockCount_of_ne_nil p hd]; omega
  have hcounts : blockCount p (d ++ d₂) = m + blockCount p d₂ := by
    rw [blockCount_of_ne_nil p (by simp [hd]), blockCount_of_ne_nil p hd₂, List.length_append]
    omega
  rw [dataBlocks, dataBlocks, dataBlocks, hcounts, hcount, List.range_add, List.map_append, List.map_map]
  congr 1
  · refine List.map_congr_left fun j hj => blockAt_congr fun i hi => ?_
    have := List.mem_range.1 hj
    rw [List.getElem?_append_left (by omega)]
  · refine List.map_congr_left fun j _ => blockAt_congr (i := m + j) fun i _ => ?_
    rw [List.getElem?_append_right (by omega), show 64 * (m + j) + i - d.length = 64 * j + i by omega]

/-- The first blocks of the data. -/
theorem dataBlocks_take (p : Params) (d : Bits) {n : Nat} (h : n ≤ blockCount p d) :
    (dataBlocks p d).take n = (List.range n).map (blockAt d) := by
  rw [dataBlocks, ← List.map_take, List.take_range, Nat.min_eq_left h]

/-! ### What ENCRYPT_ECB and ENCRYPT_CBC leave -/

/-- What BLK_LOAD puts into BLKIN for the last block of a command (R204), `w` being the state after DECODE. -/
def lastInput (w : State) : Block :=
  if chains w then
    blockAt w.dataop (w.nblk - 1) ^^^ chainBefore (keySchedule w.keyreg) w.ivreg (latchedPlain w) (w.nblk - 1)
  else blockAt w.dataop (w.nblk - 1)

/-- The datapath of a command with a data operand, from KS_PC1 to RESPOND (R204, R206, R209, R210). -/
theorem finishCommand_blocks {w : State} (hp : w.phase = .ksPc1) (hk : KeyStage w) (hop : w.op ≠ some .deriveKeys) :
    ∃ t, finishCommand w = .next t ∧ Answers t (blockBits (latchedCipher w)) ∧ t.outbuf.length = 64 * w.nblk ∧
      Kept w t ∧ t.c = keyC0 w.keyreg ∧ t.d = keyD0 w.keyreg ∧ t.ks.toList = keySchedule w.keyreg ∧ t.rnd = 16#5 ∧
      t.blk = w.nblk - 1 ∧
      t.chain = (if chains w then chainBefore (keySchedule w.keyreg) w.ivreg (latchedPlain w) w.nblk else w.chain) ∧
      (w.nblk = 0 →
        t.blkin = w.blkin ∧ t.l = w.l ∧ t.r = w.r ∧ t.preout = w.preout ∧ t.blkout = w.blkout) ∧
      (0 < w.nblk → t.blkin = lastInput w ∧ (t.l, t.r) = rounds (keySchedule w.keyreg) (initialHalves t.blkin) ∧
        t.preout = t.r ++ t.l ∧ t.blkout = desEnc t.blkin (keySchedule w.keyreg)) := by
  obtain ⟨t, hpath, hph, hst, hdi, hout, hkept, hcd, hks, hrnd, hnone, hsome⟩ := datapath hp hk
  obtain ⟨⟨-, -, -, hn⟩, -, hblk, hchain⟩ := hk
  rw [if_neg hop] at hout
  rw [halvesAfter_sixteen] at hcd
  refine ⟨t, finishCommand_path hpath, ⟨hph, hst, hdi, hout⟩, ?_, hkept, congrArg Prod.fst hcd,
    congrArg Prod.snd hcd, hks, hrnd, ?_⟩
  · rw [hout, blockBits_length, latchedCipher_length, hn]
  obtain h0 | hpos := Nat.eq_zero_or_pos w.nblk
  · obtain ⟨hb, hin, hl, hr, hpre, hbo, hch⟩ := hnone h0
    refine ⟨by rw [hb, hblk hop, h0], ?_, fun _ => ⟨hin, hl, hr, hpre, hbo⟩, fun h => absurd h0 h.ne'⟩
    rw [hch, h0, chainBefore]
    split
    · exact hchain (of_decide_eq_true ‹_›)
    · rfl
  · obtain ⟨hb, ⟨hin, hlr, hpre, hbo, -⟩, hch⟩ := hsome hpos
    rw [← hin, hks] at hlr hbo
    rw [hb] at hin
    exact ⟨hb, hch, fun h => absurd h hpos.ne', fun _ => ⟨hin, hlr, hpre, hbo⟩⟩

/-- The state in KS_PC1 after DECODE of ENCRYPT_ECB with a key that begins with `k` (R209). -/
def ecbDecoded (k : Block) (x iv data : Bits) (s : State) : State :=
  { accept 0x03#8 (toBits k ++ x) iv data s with
    outbuf := [], keyreg := k, nblk := blockCount s.params data, blk := 0, phase := .ksPc1 }

/-- ENCRYPT_ECB whose operands pass the checks runs its datapath from `ecbDecoded`. -/
theorem exec_encryptEcb (k : Block) (x iv data : Bits) {s : State} (hidle : s.phase = .idle)
    (hcap : data.length ≤ s.params.maxDataBits) :
    exec (.encryptEcb (toBits k ++ x) iv data) s = finishCommand (ecbDecoded k x iv data s) := by
  have hdec : decodeEncryptEcb (accept 0x03#8 (toBits k ++ x) iv data s) = ecbDecoded k x iv data s := by
    simp [decodeEncryptEcb, ecbDecoded, first64_append, hcap]
  exact (if_pos hidle).trans (congrArg finishCommand hdec)

/-- What KS_PC1 may rely on in ENCRYPT_ECB. -/
theorem keyStage_ecbDecoded (k : Block) (x iv data : Bits) {s : State} (hcap : data.length ≤ s.params.maxDataBits) :
    KeyStage (ecbDecoded k x iv data s) := by
  have hchecks : firstError s.params 0x03#8 (toBits k ++ x) iv data = none := by
    simp [firstError_encryptEcb (c := 0x03#8) rfl, hcap]
  exact ⟨⟨hchecks, (first64_append k x).symm, nofun, (dataBlocks_length s.params data).symm⟩, rfl, fun _ => rfl, nofun⟩

/-- Settles O39: the registers are those that the datapath leaves (`finishCommand_blocks`). -/
theorem encryptEcbReturnsBlocks : Obligations.EncryptEcbReturnsBlocks := by
  intro k x iv data s hidle hcap n
  obtain ⟨t, hfin, hans, hlen, ⟨hparams, hgrain, hcmd, hkey, hiv, hdata, hkeyreg, hivreg, hnblk, hrx, hhost, htaken⟩,
    hc, hd, hks, hrnd, hblk, hchain, hnone, hsome⟩ :=
    finishCommand_blocks (w := ecbDecoded k x iv data s) rfl (keyStage_ecbDecoded k x iv data hcap) nofun
  have hbits : blockBits (latchedCipher (ecbDecoded k x iv data s)) =
      (List.range n).flatMap fun j => toBits (desEnc (blockAt data j) (keySchedule k)) := by
    show blockBits (ecbBlocks (keySchedule k) (dataBlocks s.params data)) = _
    simp [blockBits, ecbBlocks, dataBlocks, List.flatMap_map, n]
  rw [hbits] at hans
  refine ⟨fun h => by rw [← blockCount_nil, ← h], blockCount_of_ne_nil s.params, t,
    (exec_encryptEcb k x iv data hidle hcap).trans hfin, fun h0 h1 => ?_, hans, hlen, ⟨hcmd, hkey, hiv, hdata⟩,
    hkeyreg, hc, hd, hks, hrnd, hnblk, hblk, hnone, hsome, hivreg, hchain, hparams, hgrain, hrx, hhost, htaken⟩
  obtain ⟨-, -, -, hout⟩ := hans
  rw [hout, h1, h0, List.range_one, List.flatMap_singleton, blockAt_nil]

/-- The state in KS_PC1 after DECODE of ENCRYPT_CBC with a key that begins with `k` and an IV that begins with `v`
(R205, R210). -/
def cbcDecoded (k v : Block) (x y data : Bits) (s : State) : State :=
  { accept 0x04#8 (toBits k ++ x) (toBits v ++ y) data s with
    outbuf := [], keyreg := k, ivreg := v, chain := v, nblk := blockCount s.params data, blk := 0, phase := .ksPc1 }

/-- ENCRYPT_CBC whose operands pass the checks runs its datapath from `cbcDecoded`. -/
theorem exec_encryptCbc (k v : Block) (x y data : Bits) {s : State} (hidle : s.phase = .idle)
    (hcap : data.length ≤ s.params.maxDataBits) :
    exec (.encryptCbc (toBits k ++ x) (toBits v ++ y) data) s = finishCommand (cbcDecoded k v x y data s) := by
  have hdec : decodeEncryptCbc (accept 0x04#8 (toBits k ++ x) (toBits v ++ y) data s) = cbcDecoded k v x y data s := by
    simp [decodeEncryptCbc, cbcDecoded, first64_append, hcap]
  exact (if_pos hidle).trans (congrArg finishCommand hdec)

/-- What KS_PC1 may rely on in ENCRYPT_CBC. -/
theorem keyStage_cbcDecoded (k v : Block) (x y data : Bits) {s : State} (hcap : data.length ≤ s.params.maxDataBits) :
    KeyStage (cbcDecoded k v x y data s) := by
  have hchecks : firstError s.params 0x04#8 (toBits k ++ x) (toBits v ++ y) data = none := by
    simp [firstError_encryptCbc (c := 0x04#8) rfl, hcap]
  exact ⟨⟨hchecks, (first64_append k x).symm, fun _ => (first64_append v y).symm,
    (dataBlocks_length s.params data).symm⟩, rfl, fun _ => rfl, fun _ => rfl⟩

/-- Settles O40: the registers are those that the datapath leaves (`finishCommand_blocks`). -/
theorem encryptCbcReturnsChainedBlocks : Obligations.EncryptCbcReturnsChainedBlocks := by
  intro k v x y data s hidle hcap n plain K
  obtain ⟨t, hfin, hans, hlen, ⟨hparams, hgrain, hcmd, hkey, hiv, hdata, hkeyreg, hivreg, hnblk, hrx, hhost, htaken⟩,
    hc, hd, hks, hrnd, hblk, hchain, hnone, hsome⟩ :=
    finishCommand_blocks (w := cbcDecoded k v x y data s) rfl (keyStage_cbcDecoded k v x y data hcap) nofun
  have hans : Answers t ((cbcBlocks K v plain).flatMap toBits) := hans
  refine ⟨fun h => by rw [← blockCount_nil, ← h], blockCount_of_ne_nil s.params, t,
    (exec_encryptCbc k v x y data hidle hcap).trans hfin, fun h0 h1 => ?_, hans, hlen, ⟨hcmd, hkey, hiv, hdata⟩,
    hkeyreg, hivreg, hc, hd, hks, hrnd, hnblk, hblk, hchain, hnone, hsome, hparams, hgrain, hrx, hhost, htaken⟩
  obtain ⟨-, -, -, hout⟩ := hans
  have hplain : plain = [0#64] := by
    show (List.range n).map (blockAt data) = _
    rw [h1, h0, List.range_one, List.map_singleton, blockAt_nil]
  simp [hout, hplain, cbcBlocks]

/-! ### DES_ENC is a bijection -/

/-- Two blocks with the same initial halves are equal: the halves make the permuted block, and FP undoes IP
(42_block_transform.md R172, R178). -/
theorem initialHalves_injective : Function.Injective initialHalves := by
  intro p q h
  obtain ⟨hl, hr⟩ := Prod.mk.inj h
  have hperm : perm 64 tableIP p = perm 64 tableIP q := by
    rw [← seg_append_32 (perm 64 tableIP p), hl, hr, seg_append_32]
  rw [← (finalPermutationInvertsInitial p).1, hperm, (finalPermutationInvertsInitial q).1]

/-- Each round can be undone, whatever its subkey: it keeps R and XORs a function of R to L (R173). -/
theorem rounds_injective (K : List Subkey) : Function.Injective (rounds K) := by
  induction K with
  | nil => exact Function.injective_id
  | cons k K ih =>
    intro ⟨l, r⟩ ⟨l', r'⟩ h
    obtain ⟨hr, hl⟩ := Prod.mk.inj (ih h)
    obtain rfl : r = r' := hr
    obtain rfl : l = l' := (BitVec.xor_left_inj (roundF r k)).1 hl
    rfl

/-- The final permutation loses nothing of the two halves (R174, R175). -/
theorem finalBlock_injective : Function.Injective finalBlock := by
  intro ⟨l, r⟩ ⟨l', r'⟩ h
  have happ : r ++ l = r' ++ l' := by
    rw [← (finalPermutationInvertsInitial (r ++ l)).2, ← (finalPermutationInvertsInitial (r' ++ l')).2]
    exact congrArg (perm 64 tableIP) h
  have hr := congrArg (BitVec.extractLsb' 32 32) happ
  have hl := congrArg (BitVec.extractLsb' 0 32) happ
  simp only [BitVec.extractLsb'_append_eq_left, BitVec.extractLsb'_append_eq_right] at hr hl
  rw [hr, hl]

/-- `DES_ENC` under any subkeys takes different blocks to different blocks (R176). -/
theorem desEnc_injective (K : List Subkey) : Function.Injective fun p => desEnc p K :=
  finalBlock_injective.comp ((rounds_injective K).comp initialHalves_injective)

/-! ### The first blocks of a ciphertext -/

/-- The first CBC ciphertext blocks are those of the first plaintext blocks (R212). -/
theorem cbcBlocks_take (K : List Subkey) (v : Block) (bs : List Block) (n : Nat) :
    (cbcBlocks K v bs).take n = cbcBlocks K v (bs.take n) := by
  induction bs generalizing v n with
  | nil => simp [cbcBlocks]
  | cons b bs ih =>
    cases n with
    | zero => rfl
    | succ n => simp [cbcBlocks, ih]

/-- CBC ciphertext blocks 0..n-1, where the data has them. -/
theorem cbc_take (p : Params) (k v : Block) {d : Bits} {n : Nat} (h : n ≤ blockCount p d) :
    (cbc p k v d).take (64 * n) = blockBits (cbcBlocks (keySchedule k) v ((List.range n).map (blockAt d))) := by
  rw [cbc, blockBits_take, cbcBlocks_take, dataBlocks_take p d h]

/-- CBC ciphertext block 0 encrypts data block 0 XOR the IV (R205, R210). -/
theorem cbc_take_block (p : Params) (k v : Block) {d : Bits} (h : 0 < blockCount p d) :
    (cbc p k v d).take 64 = toBits (desEnc (blockAt d 0 ^^^ v) (keySchedule k)) := by
  have := cbc_take p k v (n := 1) h
  simpa [cbcBlocks, blockBits] using this

/-- ECB ciphertext block j encrypts data block j (R209). -/
theorem ecb_block (p : Params) (k : Block) {d : Bits} {j : Nat} (h : j < blockCount p d) :
    ((ecb p k d).drop (64 * j)).take 64 = toBits (desEnc (blockAt d j) (keySchedule k)) :=
  blockBits_block _ j _ (by rw [ecbBlocks, List.getElem?_map, dataBlocks_getElem? p d j h, Option.map_some])

/-- Settles O51: DES_ENC is injective on the finite set of blocks, and the two first blocks encrypt the data block
XOR the one IV and the other. -/
theorem changedIvChangesFirstBlock : Obligations.ChangedIvChangesFirstBlock := by
  refine ⟨fun K => Finite.injective_iff_bijective.1 (desEnc_injective K), ?_⟩
  intro k v v' x y y' data s hidle hpos hcap hne
  obtain ⟨-, -, t, hx, -, ⟨-, hst, -, hout⟩, -⟩ := encryptCbcReturnsChainedBlocks k v x y data s hidle hcap
  obtain ⟨-, -, t', hx', -, ⟨-, hst', -, hout'⟩, -⟩ := encryptCbcReturnsChainedBlocks k v' x y' data s hidle hcap
  refine ⟨t, t', hx, hx', hst, hst', fun heq => hne ?_⟩
  have hout : t.outbuf = cbc s.params k v data := hout
  have hout' : t'.outbuf = cbc s.params k v' data := hout'
  rw [hout, hout', cbc_take_block _ _ _ hpos, cbc_take_block _ _ _ hpos] at heq
  exact (BitVec.xor_right_inj _).1 (desEnc_injective _ (toBits_inj heq))

/-! ### The properties of the two modes -/

/-- Settles O52: a ciphertext block is a function of its data block (`ecb_block`), and whole blocks followed by data
have the blocks of both (`dataBlocks_append`). -/
theorem ecbBlocksIndependent : Obligations.EcbBlocksIndependent := by
  intro p k d
  refine ⟨fun j hj => ecb_block p k hj, fun i j hi hj heq => ?_, fun d₂ hd h64 hd₂ => ?_⟩
  · rw [ecb_block p k hi, ecb_block p k hj, heq]
  · rw [ecb, dataBlocks_append p hd h64 hd₂, ecbBlocks, List.map_append, blockBits_append]
    rfl

/-- Settles O53: the first j+1 ciphertext blocks are those of the first j+1 data blocks. -/
theorem cbcBlocksDependOnEarlierBlocks : Obligations.CbcBlocksDependOnEarlierBlocks := by
  intro p k v d d' j hj hj' heq
  have hblocks : (List.range (j + 1)).map (blockAt d) = (List.range (j + 1)).map (blockAt d') :=
    List.map_congr_left fun i hi => heq i (Nat.le_of_lt_succ (List.mem_range.1 hi))
  rw [cbc_take p k v hj, cbc_take p k v hj', hblocks]

/-- The CBC result of one full block is the encryption of the block XOR the IV (R213). -/
theorem cbc_toBits (p : Params) (k v b : Block) :
    cbc p k v (toBits b) = toBits (desEnc (b ^^^ v) (keySchedule k)) := by
  simp [cbc, dataBlocks, blockCount_toBits, blockAt_toBits, cbcBlocks, blockBits]

/-- Settles O54: the first CBC block encrypts the first data block XOR the IV, and the two commands return the
encryption of one block. -/
theorem cbcAgainstEcbAndBlock : Obligations.CbcAgainstEcbAndBlock := by
  refine ⟨fun p k d => ?_, fun k v b iv s s' hs hs' hcap => ?_⟩
  · obtain h0 | hpos := Nat.eq_zero_or_pos (blockCount p d)
    · simp [cbc, ecb, dataBlocks, h0, cbcBlocks, ecbBlocks]
    · rw [cbc_take_block p k _ hpos, BitVec.xor_zero]
      exact (ecb_block p k hpos).symm
  · obtain ⟨-, -, t, hx, -, ⟨-, hst, -, hout⟩, -⟩ :=
      encryptCbcReturnsChainedBlocks k v [] [] (toBits b) s hs (by simpa using hcap)
    obtain ⟨t', hx', ⟨-, hst', -, hout'⟩, -⟩ := encryptBlockReturnsCiphertext k (b ^^^ v) iv s' hs'
    rw [List.append_nil, List.append_nil] at hx
    exact ⟨t, t', hx, hx', hst, hst', hout.trans ((cbc_toBits s.params k v b).trans hout'.symm)⟩

/-- Settles O55: the padded data has the same blocks (`blockAt_append_zeros`). -/
theorem paddingNotRecorded : Obligations.PaddingNotRecorded := by
  intro p k v d n hcount
  have hblocks : dataBlocks p (d ++ List.replicate n false) = dataBlocks p d := by
    rw [dataBlocks, hcount]
    exact List.map_congr_left fun j _ => blockAt_append_zeros d n j
  rw [ecb, ecb, cbc, cbc, hblocks]
  exact ⟨rfl, rfl⟩

end Sys2Proof.Machine
end

section
/-! PROOFS. The exceptions family of statements (60_exceptions.md): no state of the invariant stops, DECODE raises the
first check of R235 that fails, and the error responses command by command. -/

namespace Sys2Proof.Machine

open Sys2Proof.Config Sys2Proof.Claims

/-! ### No state of the invariant stops -/

/-- A decoded command run as a whole at an idle core answers a next state (R236). -/
theorem exec_fetched_next {u v : State} {i : Instr} (h : fetch u = some (i, v)) : ∃ t, exec i v = .next t := by
  obtain ⟨hidle, -, rest, hdec, rfl⟩ := fetch_eq h
  obtain ⟨c, k, iv, d, rfl⟩ := decode_wf_commandOf hdec
  obtain ⟨t, hx, -⟩ := exec_commandOf_response c k iv d (s := { u with rx := rest }) hidle
  exact ⟨t, hx⟩

/-- A step from a state of the invariant answers a next state: reset and take always do, a fetched command does, and
so does a transition of the sequencer by what its phase may rely on (`phaseInv_seqStep`). -/
theorem step_next_of_inv {s : State} (hi : Inv s) : ∃ t, step s = .next t := by
  cases ht : turn s with
  | reset u => exact ⟨resetEvent u, by simp only [step, ht]⟩
  | take u => exact ⟨takeResponse u, by simp only [step, ht]⟩
  | core u =>
    cases hf : fetch u with
    | some p =>
      obtain ⟨i, v⟩ := p
      obtain ⟨t, hx⟩ := exec_fetched_next hf
      exact ⟨t, by simp only [step, ht, hf, hx]⟩
    | none =>
      obtain ⟨-, -, hphase⟩ := inv_turn_core hi ht
      obtain ⟨t, hseq, -⟩ := phaseInv_seqStep hphase
      exact ⟨t, by simp only [step, ht, hf, hseq]⟩

/-- Settles O59, by induction on the number of steps: each step answers a next state, of the invariant again. -/
theorem invariantRunsSafely : Obligations.InvariantRunsSafely := by
  intro s hi n
  induction n generalizing s with
  | zero => exact ⟨s, rfl⟩
  | succ n ih =>
    obtain ⟨u, hstep⟩ := step_next_of_inv hi
    rw [run_succ n hstep]
    exact ih u (stepKeepsInvariant s u hi hstep)

/-! ### The checks of R235 -/

/-- The key breaks the length contract of its command (R233). -/
abbrev KeyBroken (c : Byte) (key : Bits) : Prop :=
  ((c = 0x01#8 ∨ c = 0x02#8) ∧ key.length ≠ 64) ∨ ((c = 0x03#8 ∨ c = 0x04#8) ∧ key.length < 64)

/-- The IV breaks the length contract of its command (R233). -/
abbrev IvBroken (c : Byte) (iv : Bits) : Prop := c = 0x04#8 ∧ iv.length < 64

/-- The data breaks the length contract of its command (R233). -/
abbrev DataBroken (c : Byte) (data : Bits) : Prop := c = 0x02#8 ∧ data.length ≠ 64

/-- The data of a mode is longer than the capacity (R234). -/
abbrev DataTooLong (p : Params) (c : Byte) (data : Bits) : Prop :=
  (c = 0x03#8 ∨ c = 0x04#8) ∧ p.maxDataBits < data.length

section Checks

variable {p : Params} {c : Byte} {k v d : Bits}

/-- The checks in the order of R235. -/
theorem firstError_eq (p : Params) (c : Byte) (k v d : Bits) : firstError p c k v d =
    if c ∉ assignedBytes then some .illegalCommand
    else if KeyBroken c k then some (.lengthContractViolation .key)
    else if IvBroken c v then some (.lengthContractViolation .iv)
    else if DataBroken c d then some (.lengthContractViolation .data)
    else if DataTooLong p c d then some (.capacityExceeded .data)
    else none := by
  unfold KeyBroken IvBroken DataBroken DataTooLong
  rcases opcodeOf_cases c with ⟨rfl, ho⟩ | ⟨rfl, ho⟩ | ⟨rfl, ho⟩ | ⟨rfl, ho⟩ | ⟨hc, ho⟩
  · simp [firstError_deriveKeys ho, assignedBytes]
  · simp [firstError_encryptBlock ho, assignedBytes]
  · simp [firstError_encryptEcb ho, assignedBytes]
  · simp [firstError_encryptCbc ho, assignedBytes]
  · rw [firstError_illegal ho, if_pos hc]

/-- The key check comes first for the four assigned bytes. -/
theorem firstError_of_keyBroken (h : KeyBroken c k) :
    firstError p c k v d = some (.lengthContractViolation .key) := by
  have hc : c ∈ assignedBytes := by
    rcases h with ⟨rfl | rfl, -⟩ | ⟨rfl | rfl, -⟩ <;> decide
  rw [firstError_eq, if_neg (not_not.2 hc), if_pos h]

/-- The IV check comes after the key check. -/
theorem firstError_of_ivBroken (hk : ¬ KeyBroken c k) (h : IvBroken c v) :
    firstError p c k v d = some (.lengthContractViolation .iv) := by
  obtain ⟨rfl, hlen⟩ := h
  have hc : 0x04#8 ∈ assignedBytes := by decide
  rw [firstError_eq, if_neg (not_not.2 hc), if_neg hk, if_pos ⟨rfl, hlen⟩]

/-- The data check of ENCRYPT_BLOCK, which has no IV check, comes after the key check. -/
theorem firstError_of_dataBroken (hk : ¬ KeyBroken c k) (h : DataBroken c d) :
    firstError p c k v d = some (.lengthContractViolation .data) := by
  obtain ⟨rfl, hlen⟩ := h
  have hc : 0x02#8 ∈ assignedBytes := by decide
  have hv : ¬ IvBroken 0x02#8 v := fun ⟨h4, _⟩ => absurd h4 (by decide)
  rw [firstError_eq, if_neg (not_not.2 hc), if_neg hk, if_neg hv, if_pos ⟨rfl, hlen⟩]

/-- The capacity check of the two modes comes after their length checks. -/
theorem firstError_of_dataTooLong (hk : ¬ KeyBroken c k) (hv : ¬ IvBroken c v) (h : DataTooLong p c d) :
    firstError p c k v d = some (.capacityExceeded .data) := by
  obtain ⟨hc, hne⟩ : c ∈ assignedBytes ∧ c ≠ 0x02#8 := by
    rcases h with ⟨rfl | rfl, -⟩ <;> decide
  have hd : ¬ DataBroken c d := fun ⟨h2, _⟩ => hne h2
  rw [firstError_eq, if_neg (not_not.2 hc), if_neg hk, if_neg hv, if_neg hd, if_pos h]

/-- Where none of the checks fails no error is reported. -/
theorem firstError_eq_none (hc : c ∈ assignedBytes) (hk : ¬ KeyBroken c k) (hv : ¬ IvBroken c v)
    (hd : ¬ DataBroken c d) (hl : ¬ DataTooLong p c d) : firstError p c k v d = none := by
  rw [firstError_eq, if_neg (not_not.2 hc), if_neg hk, if_neg hv, if_neg hd, if_neg hl]

end Checks

/-- A step in DECODE with no host move is the decode transition. -/
theorem step_decode {s : State} (hph : s.phase = .decode) (hh : s.host = []) : step s = .next (stepDecode s) :=
  (step_busy hh (by simp [hph])).trans (seqStep_decode hph)

/-- A step in DECODE raises the first check that fails: it writes STATUS, DIAG, the empty OUTBUF and PHASE, and
nothing else (R232). -/
theorem step_decode_raise {s : State} {e : CmdError} (hph : s.phase = .decode) (hh : s.host = [])
    (he : firstError s.params s.cmdreg s.keyop s.ivop s.dataop = some e) : step s = .next (raise e s) := by
  rw [step_decode hph hh, stepDecode_eq_raise he]

/-- Settles O22: each clause names the check of R235 that fails first, and DECODE raises it (`step_decode_raise`). -/
theorem decodeRaisesFirstFailingCheck : Obligations.DecodeRaisesFirstFailingCheck := by
  intro s hph hh raised c badByte badKey badIv badData tooLong
  refine ⟨fun hbyte => ?_, fun hkey => ?_, fun hkey hiv => ?_, fun hkey hdata => ?_, fun hkey hiv hlong => ?_,
    fun hbyte hkey hiv hdata hlong => ?_⟩
  · exact step_decode_raise hph hh (firstError_illegal ((opcodeOf_eq_none _).2 hbyte) ..)
  · exact step_decode_raise hph hh (firstError_of_keyBroken hkey)
  · exact step_decode_raise hph hh (firstError_of_ivBroken hkey hiv)
  · exact step_decode_raise hph hh (firstError_of_dataBroken hkey hdata)
  · exact step_decode_raise hph hh (firstError_of_dataTooLong hkey hiv hlong)
  · have hnone := firstError_eq_none (not_not.1 hbyte) hkey hiv hdata hlong
    exact ⟨_, step_decode hph hh, by rw [stepDecode_phase, hnone]; rfl⟩

/-! ### The error responses, command by command -/

/-- A command whose check fails writes the operand latches and the error response, and nothing else (R232, R236). -/
theorem exec_commandOf_error {c : Byte} {k v d : Bits} {e : CmdError} {s : State} (hidle : s.phase = .idle)
    (he : firstError s.params c k v d = some e) :
    exec (commandOf c k v d) s = .next (erred c k v d e.status e.diag s) := by
  rw [exec_commandOf c k v d hidle, stepDecode_eq_raise (s := accept c k v d s) he]
  exact finishCommand_respond rfl

/-- Settles O41: the meaning of the row raises ILLEGAL_COMMAND (`exec_illegal`). -/
theorem illegalCommandAnswersError : Obligations.IllegalCommandAnswersError := fun cmd key iv data _ _ hidle =>
  exec_illegal cmd key iv data hidle

/-- Settles O42, by the checks of each command in their order. -/
theorem lengthContractViolations : Obligations.LengthContractViolations := by
  intro key iv data s hidle
  refine ⟨fun hk => ⟨?_, ?_⟩, fun hk hd => ?_, fun hk => ⟨?_, ?_⟩, fun hk hv => ?_⟩
  · exact exec_commandOf_error (c := 0x01#8) hidle ((firstError_deriveKeys rfl ..).trans (if_pos hk))
  · exact exec_commandOf_error (c := 0x02#8) hidle ((firstError_encryptBlock rfl ..).trans (if_pos hk))
  · exact exec_commandOf_error (c := 0x02#8) hidle
      ((firstError_encryptBlock rfl ..).trans ((if_neg (not_not.2 hk)).trans (if_pos hd)))
  · exact exec_commandOf_error (c := 0x03#8) hidle ((firstError_encryptEcb rfl ..).trans (if_pos hk))
  · exact exec_commandOf_error (c := 0x04#8) hidle ((firstError_encryptCbc rfl ..).trans (if_pos hk))
  · exact exec_commandOf_error (c := 0x04#8) hidle
      ((firstError_encryptCbc rfl ..).trans ((if_neg (not_lt.2 hk)).trans (if_pos hv)))

/-- Settles O43, by the checks of the two modes in their order. -/
theorem capacityExceeded : Obligations.CapacityExceeded := by
  intro key iv data s hidle hlong hk
  refine ⟨?_, fun hv => ?_⟩
  · exact exec_commandOf_error (c := 0x03#8) hidle
      ((firstError_encryptEcb rfl ..).trans ((if_neg (not_lt.2 hk)).trans (if_pos hlong)))
  · exact exec_commandOf_error (c := 0x04#8) hidle ((firstError_encryptCbc rfl ..).trans
      ((if_neg (not_lt.2 hk)).trans ((if_neg (not_lt.2 hv)).trans (if_pos hlong))))

end Sys2Proof.Machine
end

section
/-! PROOFS. The reset and hazards family of statements (70_reset_and_hazards.md): the core after reset, the latches of
a busy core, and the number of steps from accept to take. -/

namespace Sys2Proof.Machine

open Sys2Proof.Claims

/-! ### Reset -/

/-- Settles O10, by the fields of `State.reset`. -/
theorem resetLeavesCoreReady : Obligations.ResetLeavesCoreReady := ⟨rfl, rfl, rfl, rfl⟩

/-- Settles O57: the default parameters are legal, no block is counted, and in IDLE no phase relies on anything. -/
theorem invariantAtReset : Obligations.InvariantAtReset :=
  inv_of_idle_or_decode (by decide) (Nat.zero_le _) (.inl rfl)

/-- The step at which the host asserts reset, in any phase (R260). -/
theorem step_reset {s : State} {host : List HostMove} (hh : s.host = .reset :: host) :
    step s = .next (resetEvent { s with host := host }) := by
  simp only [step, turn, hh]

/-- Settles O11: the step is the reset event (`step_reset`), which leaves the core in IDLE and keeps the host's side. -/
theorem resetCutsOffCommand : Obligations.ResetCutsOffCommand := fun _ _ hh =>
  ⟨_, step_reset hh, rfl, rfl, rfl, rfl, rfl, rfl, rfl, rfl⟩

/-! ### The latches of a busy core -/

/-- The host's move before a busy core's is a move taken off the list: no bytes are received and no register is
written (R269). -/
theorem turn_core_busy {s u : State} (hbusy : s.phase ≠ .idle) (h : turn s = .core u) :
    ∃ host, u = { s with host := host } :=
  (turn_core_eq h).resolve_right fun ⟨hidle, _⟩ => hbusy hidle

/-- What a step of a busy core can be, short of reset: the take, or one transition of the sequencer. -/
theorem step_busy_cases {s t : State} (hbusy : s.phase ≠ .idle) (hreset : s.host.head? ≠ some .reset)
    (h : step s = .next t) :
    ∃ host, t = takeResponse { s with host := host } ∨ seqStep { s with host := host } = .next t := by
  rcases step_cases h with ⟨host, hr, -⟩ | ⟨host, -, -, rfl⟩ | ⟨u, i, v, hu, hf, -⟩ | ⟨u, hu, -, hx⟩
  · simp [hr] at hreset
  · exact ⟨host, .inl rfl⟩
  · obtain ⟨host, rfl⟩ := turn_core_busy hbusy hu
    exact absurd (fetch_eq hf).1 hbusy
  · obtain ⟨host, rfl⟩ := turn_core_busy hbusy hu
    exact ⟨host, .inr hx⟩

/-- Settles O16: the take writes none of these registers, and a transition of the sequencer keeps the latches outside
IDLE and what DECODE selected outside DECODE (`seqStep_keeps`). -/
theorem operandsStayLatched : Obligations.OperandsStayLatched := by
  intro s t hbusy hreset h
  obtain ⟨host, rfl | hx⟩ := step_busy_cases hbusy hreset h
  · exact ⟨rfl, rfl, rfl, rfl, rfl, fun _ => ⟨rfl, rfl, rfl⟩⟩
  · obtain ⟨-, hlatch, hselect, -⟩ := seqStep_keeps hx
    obtain ⟨hcmd, hkey, hiv, hdata, hrx⟩ := hlatch hbusy
    exact ⟨hcmd, hkey, hiv, hdata, hrx, hselect hbusy⟩

/-! ### The steps from accept to take -/

/-- The table of R271 by the decoded command's row is the one by its command byte. -/
theorem stepsToTake_of_decode {bs rest : List Byte} {i : Instr} (h : decode bs = .ok (i, rest)) (p : Config.Params) :
    stepsToTake p i = stepCount p i.cmdByte i.key i.iv i.data := by
  obtain ⟨c, k, v, d, rfl⟩ := decode_wf_commandOf h
  obtain ⟨hc, hk, hv, hd⟩ := commandOf_fields c k v d
  unfold stepsToTake stepCount
  rw [hc, hk, hv, hd]
  cases he : firstError p c k v d with
  | some e => rfl
  | none =>
    rcases firstError_none he with ⟨ho, -⟩ | ⟨ho, -⟩ | ⟨ho, -⟩ | ⟨ho, -⟩
    all_goals simp [commandOf, ho, plainBlocks]

/-- At the grain of transitions a host that waits to take the response leaves the step to the sequencer until the
response is on offer. -/
theorem step_before_take {s : State} {host : List HostMove} (hh : s.host = .take :: host) (hg : s.grain = .phase)
    (hp : s.phase ≠ .respond) : step s = seqStep s := by
  have hturn : turn s = .core s := by simp [turn, hh, hp]
  simp only [step, hturn, fetch_none_of_grain hg]

/-- A run of the sequencer is a run of the machine, at the grain of transitions with a host that waits to take. -/
theorem Path.runs_before_take {n : Nat} {s t : State} {host : List HostMove} (h : Path n s t) (hg : s.grain = .phase)
    (hh : s.host = .take :: host) (m : Nat) : run (n + m) s = run m t := by
  induction n generalizing s with
  | zero =>
    obtain rfl : s = t := h
    rw [Nat.zero_add]
  | succ n ih =>
    obtain ⟨-, hresp, u, hseq, hp⟩ := h
    obtain ⟨⟨-, hgrain, hhost, -⟩, -⟩ := seqStep_keeps hseq
    rw [Nat.add_right_comm, run_succ _ ((step_before_take hh hg hresp).trans hseq)]
    exact ih hp (hgrain.trans hg) (hhost.trans hh)

/-- After the accept the run up to and with the take gives the host `Exec` of the command, in its step count less the
accept; the host's later moves and the bytes received stay (R271). -/
theorem run_accept_to_take (c : Byte) (k v d : Bits) {s : State} {host : List HostMove} (hg : s.grain = .phase)
    (hh : s.host = .take :: host) :
    ∃ n t, n + 1 = stepCount s.params c k v d ∧ run n (accept c k v d s) = .next t ∧ t.phase = .idle ∧
      t.host = host ∧ t.rx = s.rx ∧ t.taken = s.taken ++ [(execRef s.params c k v d).packet] := by
  obtain ⟨n, u, hn, hpath, hphase, hresp, ⟨-, -, hhost, htaken⟩, ⟨-, -, -, -, hrx⟩, -⟩ :=
    command_path (accept c k v d s)
  have hpath' : Path (n + 1) (accept c k v d s) u := hpath.cons (by simp) (by simp) (seqStep_decode rfl)
  refine ⟨n + 1 + 1, takeResponse { u with host := host }, hn, ?_, rfl, rfl, hrx, ?_⟩
  · rw [hpath'.runs_before_take hg hh, run_succ _ (step_take hphase (hhost.trans hh)), run]
  · exact congrArg₂ (fun taken resp => taken ++ [Response.packet resp]) htaken hresp

/-- Settles O48: the first step is the accept, and the rest is the run from accept to take. -/
theorem stepsFromAcceptToTake : Obligations.StepsFromAcceptToTake := by
  intro s i rest hidle hg hh hdec
  have haccept : step s = .next (accept i.cmdByte i.key i.iv i.data { s with rx := rest }) := by
    rw [step_before_take hh hg (by simp [hidle]), seqStep_idle hidle, stepIdle, hdec]
  obtain ⟨n, t, hn, hrun, ht⟩ :=
    run_accept_to_take i.cmdByte i.key i.iv i.data (s := { s with rx := rest }) hg hh
  refine ⟨t, ?_, ht⟩
  rw [stepsToTake_of_decode hdec, ← hn, run_succ n haccept, hrun]

end Sys2Proof.Machine
end
